-- ==== Sys2Proof/Word.lean ====
section
/-! DEFINITION. The word types of the CORE (spec 00_scope.md R7, R8, R9). -/

namespace Sys2Proof

/-- A byte of buffer memory (20_memory.md R60). -/
abbrev Byte := BitVec 8

/-- A 32-bit word: a command, a control register, a lane of a Block (R7). -/
abbrev Word := BitVec 32

/-- Half a Block, the operand of the 64 x 64 carry-less multiplier (R120). -/
abbrev Half := BitVec 64

/-- A Block, a 128-bit value; bit 0 is the least significant (R8, R9). -/
abbrev Block := BitVec 128

/-- The index of a Block register: every value 0..31 names one (R93). -/
abbrev RegIdx := Fin 32

end Sys2Proof
end

