-- ==== Sys2Proof/Config.lean ====
section
/-! DEFINITION. The fixed parameters of the CORE (00_scope.md R7) and its free values. -/

namespace Sys2Proof.Config

/-- `NT`: capacity of the powers table (R7). -/
def tableSize : Nat := 8

/-- `W_CTR`: blocks of a codec super-block (R7). -/
def codecWidth : Nat := 6

/-- `POLY`, the constant block `{1, 0, 0, 0xc2000000}`, lane 0 first (R7, R9). -/
def poly : Block := 0xc2000000000000000000000000000001#128

/-- `AW = 32`: the number of buffer addresses (R7, R60). -/
abbrev addrSpace : Nat := 4294967296

/-- FREE VALUE: the byte at address `a` of the output range after a hard reset in the middle of
a codec command, for the `d`-th such reset (R270: "unspecified bytes"; U16: "any value").
It has no body, so nothing can be proved of its value. Log entry 6. -/
opaque midResetByte (d a : Nat) : Byte

end Sys2Proof.Config
end

