-- ==== Sys2Proof/Syntax.lean ====
section
/-! DEFINITION. The commands of the CORE: one constructor per row of the opcode table
(30_encoding.md R95), with the operands in the assembler's form (R92, R101). -/

namespace Sys2Proof

/-- The fifteen commands. `n`, `w` and `k` are the assembler's numbers (`n` and `W` in 1..8, `k` in
0..511, R92, R101), not the encoded fields. -/
inductive Instr where
  | bxor       (rd rs1 rs2 : RegIdx)
  | clmul      (rd rs1 rs2 : RegIdx) (sel : BitVec 2)
  | clmulw     (rs1 rs2 : RegIdx)
  | clmac      (rs1 rs2 : RegIdx)
  | gfred      (rd : RegIdx)
  | gfmul      (rd rs1 rs2 : RegIdx)
  | bldtbl     (n : Nat)
  | foldh
  | foldb      (w : Nat)
  | aesenc     (rd rs1 rs2 : RegIdx)
  | aesenclast (rd rs1 rs2 : RegIdx)
  | aesblk     (rd rs1 : RegIdx)
  | ctrinc     (k : Nat)
  | ctrenc
  | ctrdec
  deriving DecidableEq, Repr

/-- Why a word is no command (R99): its `op` is reserved (R98), or its `op` is assigned and a
field the command does not use is nonzero (R91). Both raise the one cause `ILLEGAL`. -/
inductive IllegalWord where
  | reservedOp
  | unusedField
  deriving DecidableEq, Repr

end Sys2Proof
end

