-- ==== Sys2Proof/Machine/State.lean ====
section
/-! DEFINITION. The state of the CORE and of what it is attached to, as plain data
(10_state.md R20 to R46, 20_memory.md R60, 00_scope.md R14 to R16), and the state after reset. -/

namespace Sys2Proof.Machine

/-- How a step can stop with a fault: in no way, so the type has no constructor. The CORE's own
faults (ILLEGAL, UNINIT, RANGE, OVERLAP, BUS) set the latch and the machine goes on, frozen
(R243, R248): they are next states, see `Cause` and log entry 1. Safe. -/
inductive Fault where
  deriving DecidableEq, Repr

/-- How a step can be refused. -/
inductive Refusal where
  /-- Raised by an arm of `exec` for a command without a meaning: by none. Safe. -/
  | notModelled (mnemonic : String)
  deriving DecidableEq, Repr

/-- The cause codes of `STATUS.CAUSE` (R245): six values, `noFault` while `ERR = 0`. -/
inductive Cause where
  | noFault | illegal | uninit | range | overlap | bus
  deriving DecidableEq, Repr

/-- Buffer memory: the cells that differ from what an unlisted address reads as, addresses rising
(20_memory.md R60; the canonical form is `Memory.wf`). -/
abbrev Memory := List Host.Cell

/-- A run of buffer addresses, `base .. base + size - 1`. -/
structure Region where
  base : Nat
  size : Nat
  deriving DecidableEq, Repr

/-- A word of the register port, at byte offset `4 * slot` (R41). The type has no misaligned and no
narrow access: R41, "the model gives the host no such move". Log entry 5. -/
abbrev PortSlot := Fin 1024

/-- What happens between commands (60_exceptions.md R256), and the platform's hard reset
(70_reset_and_hazards.md R270). -/
inductive HostAction where
  /-- An aligned 32-bit read of the register port (R41). -/
  | portRead (slot : PortSlot)
  /-- An aligned 32-bit write of the register port (R41); a write of `CMD` issues a command (R32). -/
  | portWrite (slot : PortSlot) (v : Word)
  /-- The host reads a byte of buffer memory by its own means (R43, R256). -/
  | memRead (a : Word)
  /-- The host writes a byte of buffer memory by its own means (R43, R256). -/
  | memWrite (a : Word) (v : Byte)
  /-- Hard reset between commands (R270). -/
  | hardReset
  /-- `w` is written to `CMD` and a hard reset strikes before the command completes (R270). -/
  | hardResetDuring (w : Word)
  deriving DecidableEq, Repr

/-- What a read returned to the host (R41). -/
inductive Observation where
  | port (slot : PortSlot) (v : Word)
  | mem (a : Word) (v : Byte)
  deriving DecidableEq, Repr

/-- The state. -/
structure State where
  /-- The Block registers `x[0..31]` (R20, R21). -/
  x        : Vector Block 32
  /-- The lane-valid bits: bit `j` of `xv[i]` is `xv[i][j]` (R27). -/
  xv       : Vector (BitVec 4) 32
  /-- `CFG.KS` (R33); the other bits of `CFG` are hardwired zero. -/
  ks       : Bool
  /-- `SRC` (R34). -/
  src      : Word
  /-- `DST` (R34). -/
  dst      : Word
  /-- `LEN` (R34). -/
  len      : Word
  /-- `STATUS.ERR` (R35, R36). -/
  err      : Bool
  /-- `STATUS.CAUSE` (R35, R245). -/
  cause    : Cause
  /-- `FCMD` (R37). -/
  fcmd     : Word
  /-- `LASTCMD` (R32). -/
  lastcmd  : Word
  /-- Buffer memory (R43, R60). -/
  mem      : Memory
  /-- The platform's `mem_readable`: the addresses in one of these regions (R60). No step changes it. -/
  readable : List Region
  /-- The platform's `mem_writable` (R60). No step changes it. -/
  writable : List Region
  /-- MODEL's own: the host's actions not yet performed, the next one first (R15, R16; entry 4). -/
  pending  : List HostAction
  /-- MODEL's own: how many actions have been taken, the bookkeeping index of R30. -/
  cp       : Nat
  /-- MODEL's own: what the host's reads returned, newest first (R41; entry 7). -/
  seen     : List Observation
  /-- MODEL's own: how many free values have been drawn (entry 6). -/
  draws    : Nat
  deriving DecidableEq, Repr

/-- The state after reset: R46 for the CORE; the platform's and the model's own fields as log
entries 2, 3, 4, 6 and 7 say. -/
def State.reset : State where
  x        := Vector.replicate 32 0#128
  xv       := Vector.replicate 32 0#4
  ks       := false
  src      := 0#32
  dst      := 0#32
  len      := 0#32
  err      := false
  cause    := .noFault
  fcmd     := 0#32
  lastcmd  := 0#32
  mem      := []
  readable := [⟨0, Config.addrSpace⟩]
  writable := [⟨0, Config.addrSpace⟩]
  pending  := []
  cp       := 0
  seen     := []
  draws    := 0

end Sys2Proof.Machine
end

