-- ==== Sys2Proof/Machine/Operands.lean ====
section
/-! DEFINITION. Operand forms: the parts of a Block (00_scope.md R9, R10), little-endian assembly of
bytes (20_memory.md R62, R66), register aliases (10_state.md R21) and the operand selectors. -/

namespace Sys2Proof.Machine

/-- `byte(B, i) = B[8i+7:8i]` (R9). -/
def byteOf (b : Block) (i : Nat) : Byte := b.extractLsb' (8 * i) 8

/-- `lane(B, j) = B[32j+31:32j]` (R9). -/
def laneOf (b : Block) (j : Nat) : Word := b.extractLsb' (32 * j) 32

/-- `B` with lane `j` replaced by `v` (R41). -/
def withLane (b : Block) (j : Nat) (v : Word) : Block :=
  (b &&& ~~~(((0xFFFFFFFF#32).setWidth 128) <<< (32 * j))) ||| ((v.setWidth 128) <<< (32 * j))

/-- `lo(B) = B[63:0]` (R9). -/
def loHalf (b : Block) : Half := b.extractLsb' 0 64

/-- `hi(B) = B[127:64]` (R9). -/
def hiHalf (b : Block) : Half := b.extractLsb' 64 64

/-- `swap64(B) = lo(B) || hi(B)` (R9). -/
def swap64 (b : Block) : Block := loHalf b ++ hiHalf b

/-- A run of at most 16 bytes as a Block, the first byte least significant, the missing ones zero
(R62, R66). -/
def leBlock : List Byte → Block
  | [] => 0#128
  | b :: bs => (leBlock bs <<< 8) ||| b.setWidth 128

/-- The Block with `byte(B, k) = f k` for `k` in 0..15 (R9). -/
def blockOfBytes (f : Nat → Byte) : Block := leBlock ((List.range 16).map f)

/-- A half of a Block selected by one selector bit: 0 the low half, 1 the high half (R92, R122). -/
def selHalf (b : Block) (high : Bool) : Half := if high then hiHalf b else loHalf b

/-- `T[k]`, registers 0..7 (R21, R22). -/
def Reg.t (k : Nat) : RegIdx := Fin.ofNat 32 k

/-- `RK[k]`, registers 8..22 (R21, R24). -/
def Reg.rk (k : Nat) : RegIdx := Fin.ofNat 32 (8 + k)

/-- `H`, register 23 (R21). -/
def Reg.h : RegIdx := 23

/-- `ACC`, register 24 (R21, R23). -/
def Reg.acc : RegIdx := 24

/-- `CTR`, register 25 (R21, R25). -/
def Reg.ctr : RegIdx := 25

/-- `TAG`, register 26 (R21). -/
def Reg.tag : RegIdx := 26

/-- `V0`, register 27 (R21). -/
def Reg.v0 : RegIdx := 27

/-- `V1`, register 28 (R21). -/
def Reg.v1 : RegIdx := 28

/-- `V2`, register 29 (R21). -/
def Reg.v2 : RegIdx := 29

/-- `PL`, register 30, the low half of the double-width product (R21, R26). -/
def Reg.pl : RegIdx := 30

/-- `PH`, register 31, its high half (R21, R26). -/
def Reg.ph : RegIdx := 31

end Sys2Proof.Machine
end

