-- ==== Sys2Proof/WellFormed.lean ====
section
/-! DEFINITION. Which instructions the encoding can express (30_encoding.md R92, R93). -/

namespace Sys2Proof

/-- `n` and `W` are in 1..8 and `k` in 0..511 (R92); register indices and `sel` have no illegal
value (R92, R93). -/
def Instr.wellFormed : Instr → Bool
  | .bxor _ _ _ => true
  | .clmul _ _ _ _ => true
  | .clmulw _ _ => true
  | .clmac _ _ => true
  | .gfred _ => true
  | .gfmul _ _ _ => true
  | .bldtbl n => decide (1 ≤ n ∧ n ≤ 8)
  | .foldh => true
  | .foldb w => decide (1 ≤ w ∧ w ≤ 8)
  | .aesenc _ _ _ => true
  | .aesenclast _ _ _ => true
  | .aesblk _ _ => true
  | .ctrinc k => decide (k ≤ 511)
  | .ctrenc => true
  | .ctrdec => true

end Sys2Proof
end

