-- ==== Sys2Proof/Decode.lean ====
section
/-! DEFINITION. Decoding and encoding the 32-bit command word (30_encoding.md R90 to R99).
The decoder is the spec's own procedure: the rows of the opcode table with match and mask (R95),
tried in order (R96); a word that selects no row is illegal (R99). -/

namespace Sys2Proof

/-- Field `rd`, bits 23:19 (R90). -/
def fieldRd (w : Word) : RegIdx := ⟨(w.extractLsb' 19 5).toNat, (w.extractLsb' 19 5).isLt⟩

/-- Field `rs1`, bits 18:14 (R90). -/
def fieldRs1 (w : Word) : RegIdx := ⟨(w.extractLsb' 14 5).toNat, (w.extractLsb' 14 5).isLt⟩

/-- Field `rs2`, bits 13:9 (R90). -/
def fieldRs2 (w : Word) : RegIdx := ⟨(w.extractLsb' 9 5).toNat, (w.extractLsb' 9 5).isLt⟩

/-- `imm[1:0]`, the selector of CLMUL (R92). -/
def fieldSel (w : Word) : BitVec 2 := w.extractLsb' 0 2

/-- `imm[2:0] + 1`, the operand of BLDTBL and FOLDB (R92). -/
def fieldCount (w : Word) : Nat := (w.extractLsb' 0 3).toNat + 1

/-- `imm[8:0]`, the operand of CTRINC (R92). -/
def fieldImm (w : Word) : Nat := (w.extractLsb' 0 9).toNat

/-- A row of the opcode table: a word `w` selects it when `w & mask = pattern` (R91, R95). -/
structure OpRow where
  mnemonic : String
  pattern  : Word
  mask     : Word
  build    : Word → Instr

/-- The word selects the row (R96). -/
def OpRow.selects (r : OpRow) (w : Word) : Bool := w &&& r.mask == r.pattern

/-- The field arithmetic rows (units U1, U2). -/
def fieldRows : List OpRow :=
  [ ⟨"BXOR", 0x01000000#32, 0xFF0001FF#32,
      fun w => .bxor (fieldRd w) (fieldRs1 w) (fieldRs2 w)⟩,
    ⟨"CLMUL", 0x02000000#32, 0xFF0001FC#32,
      fun w => .clmul (fieldRd w) (fieldRs1 w) (fieldRs2 w) (fieldSel w)⟩,
    ⟨"CLMULW", 0x03000000#32, 0xFFF801FF#32, fun w => .clmulw (fieldRs1 w) (fieldRs2 w)⟩,
    ⟨"CLMAC", 0x04000000#32, 0xFFF801FF#32, fun w => .clmac (fieldRs1 w) (fieldRs2 w)⟩,
    ⟨"GFRED", 0x05000000#32, 0xFF07FFFF#32, fun w => .gfred (fieldRd w)⟩,
    ⟨"GFMUL", 0x06000000#32, 0xFF0001FF#32,
      fun w => .gfmul (fieldRd w) (fieldRs1 w) (fieldRs2 w)⟩ ]

/-- The powers-table and POLYVAL rows (units U3, U4, U5). -/
def hashRows : List OpRow :=
  [ ⟨"BLDTBL", 0x10000000#32, 0xFFFFFFF8#32, fun w => .bldtbl (fieldCount w)⟩,
    ⟨"FOLDH", 0x20000000#32, 0xFFFFFFFF#32, fun _ => .foldh⟩,
    ⟨"FOLDB", 0x21000000#32, 0xFFFFFFF8#32, fun w => .foldb (fieldCount w)⟩ ]

/-- The AES round and codec rows (units U6, U7). -/
def cipherRows : List OpRow :=
  [ ⟨"AESENC", 0x30000000#32, 0xFF0001FF#32,
      fun w => .aesenc (fieldRd w) (fieldRs1 w) (fieldRs2 w)⟩,
    ⟨"AESENCLAST", 0x31000000#32, 0xFF0001FF#32,
      fun w => .aesenclast (fieldRd w) (fieldRs1 w) (fieldRs2 w)⟩,
    ⟨"AESBLK", 0x32000000#32, 0xFF003FFF#32, fun w => .aesblk (fieldRd w) (fieldRs1 w)⟩,
    ⟨"CTRINC", 0x40000000#32, 0xFFFFFE00#32, fun w => .ctrinc (fieldImm w)⟩,
    ⟨"CTRENC", 0x41000000#32, 0xFFFFFFFF#32, fun _ => .ctrenc⟩,
    ⟨"CTRDEC", 0x42000000#32, 0xFFFFFFFF#32, fun _ => .ctrdec⟩ ]

/-- The opcode table in the order of R95. -/
def opcodeTable : List OpRow := fieldRows ++ hashRows ++ cipherRows

/-- `op` is the operation code of some row; the others are reserved (R98). -/
def opAssigned (w : Word) : Bool :=
  opcodeTable.any (fun r => r.pattern.extractLsb' 24 8 == w.extractLsb' 24 8)

/-- The decoder (R96): total on words, and it says by name why it rejects one (R99). -/
def decode (w : Word) : Except IllegalWord Instr :=
  match opcodeTable.find? (fun r => r.selects w) with
  | some r => .ok (r.build w)
  | none => .error (if opAssigned w then .unusedField else .reservedOp)

/-- The host's numbering of an instruction word is the hardware's: one 32-bit word, bit 0 least
significant (R90). -/
def decodeTableWord (nbits w : Nat) : Option Instr :=
  match decode (BitVec.ofNat 32 (w % 2 ^ nbits)) with
  | .ok i => some i
  | .error _ => none

/-- Format `C`: `word = op<<24 | rd<<19 | rs1<<14 | rs2<<9 | imm` (R90). -/
def packWord (op : BitVec 8) (rd rs1 rs2 : BitVec 5) (imm : BitVec 9) : Word :=
  op.setWidth 32 <<< 24 ||| rd.setWidth 32 <<< 19 ||| rs1.setWidth 32 <<< 14 |||
    rs2.setWidth 32 <<< 9 ||| imm.setWidth 32

/-- A register index as a 5-bit field (R93). -/
def regField (r : RegIdx) : BitVec 5 := BitVec.ofNat 5 r.val

/-- The encoder: the word of an instruction, unused fields zero (R90, R91, R92, R95). -/
def encode : Instr → Word
  | .bxor rd rs1 rs2 => packWord 0x01#8 (regField rd) (regField rs1) (regField rs2) 0#9
  | .clmul rd rs1 rs2 sel =>
      packWord 0x02#8 (regField rd) (regField rs1) (regField rs2) (sel.setWidth 9)
  | .clmulw rs1 rs2 => packWord 0x03#8 0#5 (regField rs1) (regField rs2) 0#9
  | .clmac rs1 rs2 => packWord 0x04#8 0#5 (regField rs1) (regField rs2) 0#9
  | .gfred rd => packWord 0x05#8 (regField rd) 0#5 0#5 0#9
  | .gfmul rd rs1 rs2 => packWord 0x06#8 (regField rd) (regField rs1) (regField rs2) 0#9
  | .bldtbl n => packWord 0x10#8 0#5 0#5 0#5 (BitVec.ofNat 9 (n - 1))
  | .foldh => packWord 0x20#8 0#5 0#5 0#5 0#9
  | .foldb w => packWord 0x21#8 0#5 0#5 0#5 (BitVec.ofNat 9 (w - 1))
  | .aesenc rd rs1 rs2 => packWord 0x30#8 (regField rd) (regField rs1) (regField rs2) 0#9
  | .aesenclast rd rs1 rs2 => packWord 0x31#8 (regField rd) (regField rs1) (regField rs2) 0#9
  | .aesblk rd rs1 => packWord 0x32#8 (regField rd) (regField rs1) 0#5 0#9
  | .ctrinc k => packWord 0x40#8 0#5 0#5 0#5 (BitVec.ofNat 9 k)
  | .ctrenc => packWord 0x41#8 0#5 0#5 0#5 0#9
  | .ctrdec => packWord 0x42#8 0#5 0#5 0#5 0#9

end Sys2Proof
end

