-- ==== Sys2Proof/Machine/Memory.lean ====
section
/-! DEFINITION. Buffer memory: one byte, runs of bytes, Blocks, whole buffers
(20_memory.md R60 to R70, R77). Addresses are natural numbers below 2^32. -/

namespace Sys2Proof.Machine

/-- What an address that is not listed reads as. `Mem0` is an open parameter (R77): a state may list
any contents; this is only the value of the addresses it leaves out. Log entry 2. -/
def Memory.unlisted : Byte := 0#8

/-- The byte at an address (R62). -/
def Memory.read : Memory → Nat → Byte
  | [], _ => Memory.unlisted
  | (b, v) :: m, a => if b = a then v else Memory.read m a

/-- The cell of an address, put before cells of higher addresses: no cell for the unlisted value. -/
def Memory.consCell (a : Nat) (v : Byte) (m : Memory) : Memory :=
  if v = Memory.unlisted then m else (a, v) :: m

/-- One byte written (R63), keeping the canonical form. -/
def Memory.write : Memory → Nat → Byte → Memory
  | [], a, v => Memory.consCell a v []
  | (b, w) :: m, a, v =>
    if a < b then Memory.consCell a v ((b, w) :: m)
    else if a = b then Memory.consCell a v m
    else (b, w) :: Memory.write m a v

/-- The canonical form: addresses strictly rising and below 2^32, no cell equal to what an unlisted
address reads as. -/
abbrev Memory.wf (m : Memory) : Prop :=
  m.Pairwise (fun c d => c.1 < d.1) ∧
    ∀ c ∈ m, c.1 < Config.addrSpace ∧ c.2 ≠ Memory.unlisted

/-- The `n` bytes at `a .. a+n-1`. -/
def Memory.bytes (m : Memory) (a n : Nat) : List Byte :=
  (List.range n).map (fun k => m.read (a + k))

/-- `zext_128(MemRead(a, n))` for `n` in 1..16 (R62, R66). -/
def Memory.readBlock (m : Memory) (a n : Nat) : Block := leBlock (m.bytes a n)

/-- A run of bytes written at `a`, `a+1`, ... (R63). -/
def Memory.writeBytes : Memory → Nat → List Byte → Memory
  | m, _, [] => m
  | m, a, b :: bs => Memory.writeBytes (m.write a b) (a + 1) bs

/-- `MemWrite(a, n, v)`: the low `n` bytes of `v`, `n` in 1..16 (R63). -/
def Memory.writeBlock (m : Memory) (a n : Nat) (v : Block) : Memory :=
  m.writeBytes a ((List.range n).map (byteOf v))

/-- The full 16-byte blocks `0 .. count-1` of a buffer at `a` (R65). -/
def Memory.fullBlocks (m : Memory) (a count : Nat) : List Block :=
  (List.range count).map (fun k => m.readBlock (a + 16 * k) 16)

/-- Blocks written one after the other at `a` (R63, R71). -/
def Memory.writeBlocks : Memory → Nat → List Block → Memory
  | m, _, [] => m
  | m, a, b :: bs => Memory.writeBlocks (m.writeBlock a 16 b) (a + 16) bs

/-- The blocks of a buffer of `n` bytes: the full ones, then the zero-padded tail if `n mod 16` is not
zero, "the padded tail counted as the last block" (R65, R66, 42_horner.md R160). -/
def Memory.bufferBlocks (m : Memory) (a n : Nat) : List Block :=
  m.fullBlocks a (n / 16) ++
    (if n % 16 = 0 then [] else [m.readBlock (a + 16 * (n / 16)) (n % 16)])

/-- The address lies in one of the regions (R60). -/
def regionsHold (rs : List Region) (a : Nat) : Bool :=
  rs.any (fun r => decide (r.base ≤ a) && decide (a < r.base + r.size))

/-- Every address of `[a, a+n)` lies in the regions (R61 (c)). -/
def regionsCover (rs : List Region) (a n : Nat) : Bool :=
  (List.range n).all (fun k => regionsHold rs (a + k))

end Sys2Proof.Machine
end

