-- ==== Sys2Proof/Machine/Ops.lean ====
section
/-! DEFINITION. The named operations over the registers: reading and writing a Block register with its
valid bits (10_state.md R10, R27), raising a fault (60_exceptions.md R243) and leaving the fault state,
which only reset does (R248, 70_reset_and_hazards.md R270, R271). -/

namespace Sys2Proof.Machine

/-- `x[i]` (R10). -/
def State.reg (s : State) (i : RegIdx) : Block := s.x[i]

/-- `valid(i)`: all four lane-valid bits of register `i` are set (R10, R27). -/
def State.valid (s : State) (i : RegIdx) : Bool := s.xv[i] == 0xF#4

/-- `x[i] <- v` by a command: the Block is written and its four lane-valid bits are set (R10, R27). -/
def State.setReg (s : State) (i : RegIdx) (v : Block) : State :=
  { s with x := s.x.set i v, xv := s.xv.set i 0xF#4 }

/-- A register cleared and made invalid, as BLDTBL does to the entries beyond `n` (R151). -/
def State.invalidate (s : State) (i : RegIdx) : State :=
  { s with x := s.x.set i 0#128, xv := s.xv.set i 0#4 }

/-- The host writes lane `j` of register `i`: that lane and its valid bit, no other (R27, R41). -/
def State.setLane (s : State) (i : RegIdx) (j : Fin 4) (v : Word) : State :=
  { s with x := s.x.set i (withLane (s.reg i) j v), xv := s.xv.set i (s.xv[i] ||| (1#4 <<< j.val)) }

/-- `raise Fault(c)` for the command word `w` (R243): the latch, the cause and `FCMD`, nothing else. -/
def raiseFault (c : Cause) (w : Word) (s : State) : State :=
  { s with err := true, cause := c, fcmd := w }

/-- The whole architectural state takes its reset values; buffer memory, the platform and the model's
own fields stay (R46, R270, R271). It is the only way out of the fault state (R248). -/
def resetCore (s : State) : State :=
  { State.reset with
    mem := s.mem, readable := s.readable, writable := s.writable,
    pending := s.pending, cp := s.cp, seen := s.seen, draws := s.draws }

/-- The number of rounds `NR`: 10 when `CFG.KS = 0`, 14 when `CFG.KS = 1` (R196). -/
def State.rounds (s : State) : Nat := if s.ks then 14 else 10

/-- The powers table as a function of the entry number: `T[k]` (R22). -/
def State.table (s : State) (k : Nat) : Block := s.reg (Reg.t k)

/-- The key schedule as a function of the round number: `RK[k]` (R24). -/
def State.roundKey (s : State) (k : Nat) : Block := s.reg (Reg.rk k)

end Sys2Proof.Machine
end

