-- ==== Sys2Proof/Machine/Checks.lean ====
section
/-! DEFINITION. The checks made before a command has any effect, and the frame every command runs in
(60_exceptions.md R241 to R250, 20_memory.md R61, R70). -/

namespace Sys2Proof.Machine

/-- The round-key registers a block encryption reads, `RK[0..NR]` (R196). -/
def roundKeySet (s : State) : List RegIdx := (List.range (s.rounds + 1)).map Reg.rk

/-- The first `n` entries of the powers table. -/
def tableSet (n : Nat) : List RegIdx := (List.range n).map Reg.t

/-- The validity set of the codec commands (R212). -/
def codecSet (s : State) : List RegIdx :=
  let n := s.len.toNat
  [Reg.tag] ++ (if 1 ≤ n then Reg.acc :: roundKeySet s else []) ++
    (if 96 ≤ n then tableSet 6 else []) ++ (if n % 96 ≠ 0 then [Reg.t 0] else [])

/-- The validity set of a command, a function of the command, `CFG.KS` and `LEN` (R246). -/
def validitySet (s : State) : Instr → List RegIdx
  | .bxor _ rs1 rs2 => [rs1, rs2]
  | .clmul _ rs1 rs2 _ => [rs1, rs2]
  | .clmulw rs1 rs2 => [rs1, rs2]
  | .clmac rs1 rs2 => [rs1, rs2, Reg.pl, Reg.ph]
  | .gfred _ => [Reg.pl, Reg.ph]
  | .gfmul _ rs1 rs2 => [rs1, rs2]
  | .bldtbl _ => [Reg.h]
  | .foldh => if s.len = 0#32 then [] else [Reg.acc, Reg.h]
  | .foldb w => if s.len = 0#32 then [] else Reg.acc :: tableSet w
  | .aesenc _ rs1 rs2 => [rs1, rs2]
  | .aesenclast _ rs1 rs2 => [rs1, rs2]
  | .aesblk _ rs1 => rs1 :: roundKeySet s
  | .ctrinc _ => [Reg.ctr]
  | .ctrenc => codecSet s
  | .ctrdec => codecSet s

/-- The command reads the input buffer `[SRC, SRC+LEN)` (R43). -/
def readsInput : Instr → Bool
  | .bxor _ _ _ => false
  | .clmul _ _ _ _ => false
  | .clmulw _ _ => false
  | .clmac _ _ => false
  | .gfred _ => false
  | .gfmul _ _ _ => false
  | .bldtbl _ => false
  | .foldh => true
  | .foldb _ => true
  | .aesenc _ _ _ => false
  | .aesenclast _ _ _ => false
  | .aesblk _ _ => false
  | .ctrinc _ => false
  | .ctrenc => true
  | .ctrdec => true

/-- The command writes the output buffer `[DST, DST+LEN)` (R43). -/
def writesOutput : Instr → Bool
  | .bxor _ _ _ => false
  | .clmul _ _ _ _ => false
  | .clmulw _ _ => false
  | .clmac _ _ => false
  | .gfred _ => false
  | .gfmul _ _ _ => false
  | .bldtbl _ => false
  | .foldh => false
  | .foldb _ => false
  | .aesenc _ _ _ => false
  | .aesenclast _ _ _ => false
  | .aesblk _ _ => false
  | .ctrinc _ => false
  | .ctrenc => true
  | .ctrdec => true

/-- The range check (R61 (a)): no buffer of the command wraps past 2^32. -/
def rangeOk (i : Instr) (s : State) : Bool :=
  (!readsInput i || decide (s.src.toNat + s.len.toNat ≤ Config.addrSpace)) &&
    (!writesOutput i || decide (s.dst.toNat + s.len.toNat ≤ Config.addrSpace))

/-- The overlap check (R70): the codec's two ranges have an address in common. -/
def buffersOverlap (i : Instr) (s : State) : Bool :=
  writesOutput i && decide (0 < s.len.toNat) &&
    decide (s.src.toNat < s.dst.toNat + s.len.toNat) &&
    decide (s.dst.toNat < s.src.toNat + s.len.toNat)

/-- The platform check (R61 (c)): every input address is readable, every output address writable. -/
def platformOk (i : Instr) (s : State) : Bool :=
  (!readsInput i || regionsCover s.readable s.src.toNat s.len.toNat) &&
    (!writesOutput i || regionsCover s.writable s.dst.toNat s.len.toNat)

/-- The first failing check of a decoded command, in the order of R250; `noFault` if all pass (R244). -/
def firstFailure (i : Instr) (s : State) : Cause :=
  if !(validitySet s i).all s.valid then .uninit
  else if !rangeOk i s then .range
  else if buffersOverlap i s then .overlap
  else if !platformOk i s then .bus
  else .noFault

/-- A command: the checks, then its effect, or the fault of the first failing check and no effect
(R241 (3) to (5), R242). `FCMD` takes the command's own word (log entry 11). -/
def checked (i : Instr) (effect : State → State) (s : State) : Host.Outcome State Fault Refusal :=
  match firstFailure i s with
  | .noFault => .next (effect s)
  | c => .next (raiseFault c (encode i) s)

end Sys2Proof.Machine
end

