-- ==== Sys2Proof/Machine/Aes.lean ====
section
/-! DEFINITION. The AES round pipeline: AESENC, AESENCLAST, AESBLK (44_aes_round.md). -/

namespace Sys2Proof.Machine

/-- AESENC (R198). -/
def execAesenc (rd rs1 rs2 : RegIdx) (s : State) : Host.Outcome State Fault Refusal :=
  checked (.aesenc rd rs1 rs2) (fun s => s.setReg rd (encRound (s.reg rs1) (s.reg rs2))) s

/-- AESENCLAST (R199). -/
def execAesenclast (rd rs1 rs2 : RegIdx) (s : State) : Host.Outcome State Fault Refusal :=
  checked (.aesenclast rd rs1 rs2) (fun s => s.setReg rd (encLast (s.reg rs1) (s.reg rs2))) s

/-- `EncBlock` with the machine's key schedule and round count (R197). -/
def State.encrypt (s : State) (b : Block) : Block := encBlock s.roundKey s.rounds b

/-- AESBLK (R200): the keys are all read before `rd` is written. -/
def execAesblk (rd rs1 : RegIdx) (s : State) : Host.Outcome State Fault Refusal :=
  checked (.aesblk rd rs1) (fun s => s.setReg rd (s.encrypt (s.reg rs1))) s

end Sys2Proof.Machine
end

