-- ==== Sys2Proof/Machine/Gf.lean ====
section
/-! DEFINITION. Field arithmetic: the carry-less multiplier (U1), the reduction engine (U2), the
field multiply and the folds built on it (40_field_arith.md, 41_powers_table.md, 42_horner.md,
43_batched.md). Pure functions of Blocks; no state. -/

namespace Sys2Proof.Machine

/-- The sum over the low `n` bits of `a`: `XOR over i < n with a[i] = 1 of (zext_128(b) << i)` (R120). -/
def clmulBits (a b : Half) : Nat → Block
  | 0 => 0#128
  | n + 1 => clmulBits a b n ^^^ (if a.getLsbD n then b.setWidth 128 <<< n else 0#128)

/-- `clmul64(a, b)`, the 64 x 64 carry-less product (R120). -/
def clmul64 (a b : Half) : Block := clmulBits a b 64

/-- The middle term `p01 xor p10` of the 128 x 128 product (R123). -/
def clmulMid (a b : Block) : Block :=
  clmul64 (loHalf a) (hiHalf b) ^^^ clmul64 (hiHalf a) (loHalf b)

/-- `PL` of `clmul128(A, B)` (R123). -/
def clmulLow (a b : Block) : Block := clmul64 (loHalf a) (loHalf b) ^^^ (clmulMid a b <<< 64)

/-- `PH` of `clmul128(A, B)` (R123). -/
def clmulHigh (a b : Block) : Block := clmul64 (hiHalf a) (hiHalf b) ^^^ (clmulMid a b >>> 64)

/-- `K = hi(POLY) = 0xc200000000000000` (R126). -/
def reduceConst : Half := hiHalf Config.poly

/-- One round of the reduction: multiply the low half by `K`, exchange the halves, xor (R126). -/
def reduceRound (v : Block) : Block := swap64 v ^^^ clmul64 (loHalf v) reduceConst

/-- `Reduce(PH, PL)`: two rounds and one xor (R126). -/
def gfReduce (ph pl : Block) : Block := ph ^^^ reduceRound (reduceRound pl)

/-- `gfmul(A, B) = Reduce(clmul128(A, B))` (R129). -/
def gfmul (a b : Block) : Block := gfReduce (clmulHigh a b) (clmulLow a b)

/-- `H^(k+1)`, the entry `T[k]`: `table[0] = H; table[i] = table[i-1] x H` (R150, R151). -/
def hashPower (h : Block) : Nat → Block
  | 0 => h
  | k + 1 => gfmul (hashPower h k) h

/-- `FoldStep(s, h, b) = gfmul(s xor b, h)` (R160). -/
def foldStep (h s b : Block) : Block := gfmul (s ^^^ b) h

/-- `HornerFold(s, h, B)` over the blocks of `B`, the padded tail counted as the last one (R160). -/
def hornerFold (s h : Block) (bs : List Block) : Block := bs.foldl (foldStep h) s

/-- `QH` of a group: each block's product with the table entry of its distance from the newest
(R170). -/
def groupHigh (t : Nat → Block) : List Block → Block
  | [] => 0#128
  | b :: bs => clmulHigh b (t bs.length) ^^^ groupHigh t bs

/-- `QL` of a group (R170). -/
def groupLow (t : Nat → Block) : List Block → Block
  | [] => 0#128
  | b :: bs => clmulLow b (t bs.length) ^^^ groupLow t bs

/-- `GroupFold(s, T, [b_0 .. b_(g-1)])`: the carried state joins the oldest block, the products are
summed unreduced, one reduction pass (R170). With no block there is no group and nothing happens. -/
def groupFold (t : Nat → Block) (s : Block) : List Block → Block
  | [] => s
  | b :: bs => gfReduce (groupHigh t ((s ^^^ b) :: bs)) (groupLow t ((s ^^^ b) :: bs))

/-- `full` groups of `w` blocks, then the short final group of what is left (R172, R174). -/
def foldGroups (t : Nat → Block) (w : Nat) : Nat → Block → List Block → Block
  | 0, s, bs => groupFold t s bs
  | full + 1, s, bs => foldGroups t w full (groupFold t s (bs.take w)) (bs.drop w)

/-- `CtrAdd(c, k)`: lane 0 plus `k` modulo 2^32, lanes 1 to 3 kept (R210). -/
def ctrAdd (c : Block) (k : Nat) : Block :=
  c.extractLsb' 32 96 ++ (laneOf c 0 + BitVec.ofNat 32 k)

/-- The tag-derived initial counter: `TAG | (1 << 127)` (R213). -/
def initialCounter (tag : Block) : Block := tag ||| (1#128 <<< 127)

end Sys2Proof.Machine
end

