-- ==== Sys2Proof/Machine/Codec.lean ====
section
/-! DEFINITION. The counter and the authenticated CTR codec: CTRINC, CTRENC, CTRDEC
(45_ctr_codec.md). -/

namespace Sys2Proof.Machine

/-- CTRINC (R211): no carry leaves lane 0, no flag. -/
def execCtrinc (k : Nat) (s : State) : Host.Outcome State Fault Refusal :=
  checked (.ctrinc k) (fun s => s.setReg Reg.ctr (ctrAdd (s.reg Reg.ctr) k)) s

/-- What a codec command carries through its phases: memory, counter, accumulator and the hidden
byte offset `pos` (R215, 10_state.md R45). -/
structure CodecRun where
  mem : Memory
  ctr : Block
  acc : Block
  pos : Nat
  deriving DecidableEq, Repr

/-- The block that is folded: always the ciphertext, the input when decrypting, the output when
encrypting (R214). -/
def ciphertextOf (dec : Bool) (input output : Block) : Block := if dec then input else output

/-- One super-block of Phase A (R216): six counters, six inputs, six outputs written, the six
ciphertext blocks folded as one group; then the advances of R215. The registers of `s` (keys, table,
addresses) do not change during the command. -/
def phaseA (dec : Bool) (s : State) (c : CodecRun) : CodecRun :=
  let inputs := c.mem.fullBlocks (s.src.toNat + c.pos) Config.codecWidth
  let stream := (List.range Config.codecWidth).map (fun j => s.encrypt (ctrAdd c.ctr j))
  let outputs := List.zipWith (fun i k => i ^^^ k) inputs stream
  { mem := c.mem.writeBlocks (s.dst.toNat + c.pos) outputs
    ctr := ctrAdd c.ctr Config.codecWidth
    acc := groupFold s.table c.acc (List.zipWith (ciphertextOf dec) inputs outputs)
    pos := c.pos + 16 * Config.codecWidth }

/-- One block of Phase B (R215). -/
def phaseB (dec : Bool) (s : State) (c : CodecRun) : CodecRun :=
  let input := c.mem.readBlock (s.src.toNat + c.pos) 16
  let output := input ^^^ s.encrypt c.ctr
  { mem := c.mem.writeBlock (s.dst.toNat + c.pos) 16 output
    ctr := ctrAdd c.ctr 1
    acc := foldStep (s.table 0) c.acc (ciphertextOf dec input output)
    pos := c.pos + 16 }

/-- `zext_128(trunc_(8r)(v))`: the `r` valid bytes, "rest stays zero" (R218). -/
def keepBytes (v : Block) (r : Nat) : Block := leBlock ((List.range r).map (byteOf v))

/-- Phase C, the tail of `r` bytes, `1 <= r <= 15` (R218); the counter is not advanced. -/
def phaseC (dec : Bool) (s : State) (r : Nat) (c : CodecRun) : CodecRun :=
  let input := c.mem.readBlock (s.src.toNat + c.pos) r
  let output := keepBytes (input ^^^ s.encrypt c.ctr) r
  { mem := c.mem.writeBlock (s.dst.toNat + c.pos) r output
    ctr := c.ctr
    acc := foldStep (s.table 0) c.acc (ciphertextOf dec input output)
    pos := c.pos + r }

/-- A phase repeated `n` times. -/
def repeatPhase (f : CodecRun → CodecRun) : Nat → CodecRun → CodecRun
  | 0, c => c
  | n + 1, c => repeatPhase f n (f c)

/-- How a codec command starts: `ctr` from `TAG` (R213), `s` from `ACC`, `pos = 0` (R215). -/
def codecStart (s : State) : CodecRun :=
  { mem := s.mem, ctr := initialCounter (s.reg Reg.tag), acc := s.reg Reg.acc, pos := 0 }

/-- The three phases: A `LEN div 96` times, B `(LEN mod 96) div 16` times, C once if
`LEN mod 16 != 0`; "no phase re-entry" (R215). -/
def codecPhases (dec : Bool) (s : State) : CodecRun :=
  let n := s.len.toNat
  let full := repeatPhase (phaseB dec s) (n % 96 / 16) (repeatPhase (phaseA dec s) (n / 96) (codecStart s))
  if n % 16 = 0 then full else phaseC dec s (n % 16) full

/-- The effect of a codec command: the output bytes, `CTR`, and `ACC` when `LEN >= 1`
(R215, R219, R222). -/
def codec (dec : Bool) (s : State) : State :=
  let c := codecPhases dec s
  let t := { s with mem := c.mem }.setReg Reg.ctr c.ctr
  if s.len = 0#32 then t else t.setReg Reg.acc c.acc

/-- CTRENC (R220). -/
def execCtrenc (s : State) : Host.Outcome State Fault Refusal := checked .ctrenc (codec false) s

/-- CTRDEC (R221). -/
def execCtrdec (s : State) : Host.Outcome State Fault Refusal := checked .ctrdec (codec true) s

end Sys2Proof.Machine
end

