-- ==== Sys2Proof/Machine/Field.lean ====
section
/-! DEFINITION. The field arithmetic commands: BXOR, CLMUL, CLMULW, CLMAC, GFRED, GFMUL
(40_field_arith.md). All sources are read before the destination is written (30_encoding.md R93). -/

namespace Sys2Proof.Machine

/-- BXOR (R121). -/
def execBxor (rd rs1 rs2 : RegIdx) (s : State) : Host.Outcome State Fault Refusal :=
  checked (.bxor rd rs1 rs2) (fun s => s.setReg rd (s.reg rs1 ^^^ s.reg rs2)) s

/-- CLMUL (R122): `sel[0]` picks the half of `x[rs1]`, `sel[1]` the half of `x[rs2]`. -/
def execClmul (rd rs1 rs2 : RegIdx) (sel : BitVec 2) (s : State) :
    Host.Outcome State Fault Refusal :=
  checked (.clmul rd rs1 rs2 sel)
    (fun s => s.setReg rd
      (clmul64 (selHalf (s.reg rs1) (sel.getLsbD 0)) (selHalf (s.reg rs2) (sel.getLsbD 1)))) s

/-- CLMULW (R124). -/
def execClmulw (rs1 rs2 : RegIdx) (s : State) : Host.Outcome State Fault Refusal :=
  checked (.clmulw rs1 rs2)
    (fun s => (s.setReg Reg.pl (clmulLow (s.reg rs1) (s.reg rs2))).setReg Reg.ph
      (clmulHigh (s.reg rs1) (s.reg rs2))) s

/-- CLMAC (R125). -/
def execClmac (rs1 rs2 : RegIdx) (s : State) : Host.Outcome State Fault Refusal :=
  checked (.clmac rs1 rs2)
    (fun s => (s.setReg Reg.pl (s.reg Reg.pl ^^^ clmulLow (s.reg rs1) (s.reg rs2))).setReg Reg.ph
      (s.reg Reg.ph ^^^ clmulHigh (s.reg rs1) (s.reg rs2))) s

/-- GFRED (R128). -/
def execGfred (rd : RegIdx) (s : State) : Host.Outcome State Fault Refusal :=
  checked (.gfred rd) (fun s => s.setReg rd (gfReduce (s.reg Reg.ph) (s.reg Reg.pl))) s

/-- GFMUL (R130): `PL` and `PH` are neither read nor written. -/
def execGfmul (rd rs1 rs2 : RegIdx) (s : State) : Host.Outcome State Fault Refusal :=
  checked (.gfmul rd rs1 rs2) (fun s => s.setReg rd (gfmul (s.reg rs1) (s.reg rs2))) s

end Sys2Proof.Machine
end

