-- ==== Sys2Proof/Machine/Polyval.lean ====
section
/-! DEFINITION. The POLYVAL accumulators: FOLDH by Horner steps (42_horner.md), FOLDB by groups with
delayed reduction (43_batched.md). -/

namespace Sys2Proof.Machine

/-- The accumulator of FOLDH (R161): one step for each block of the input buffer, the tail padded. -/
def hornerAcc (s : State) : Block :=
  hornerFold (s.reg Reg.acc) (s.reg Reg.h) (s.mem.bufferBlocks s.src.toNat s.len.toNat)

/-- FOLDH (R161): "Zero-length buffer is a no-op". -/
def execFoldh (s : State) : Host.Outcome State Fault Refusal :=
  checked .foldh (fun s => if s.len = 0#32 then s else s.setReg Reg.acc (hornerAcc s)) s

/-- The accumulator of FOLDB after the full groups and the short group (R172). -/
def groupsAcc (w : Nat) (s : State) : Block :=
  foldGroups s.table w (s.len.toNat / (16 * w)) (s.reg Reg.acc)
    (s.mem.fullBlocks s.src.toNat (s.len.toNat / 16))

/-- The accumulator of FOLDB: the groups, then the tail "folded with H^1" (R172). -/
def batchedAcc (w : Nat) (s : State) : Block :=
  let n := s.len.toNat
  if n % 16 = 0 then groupsAcc w s
  else foldStep (s.table 0) (groupsAcc w s) (s.mem.readBlock (s.src.toNat + 16 * (n / 16)) (n % 16))

/-- FOLDB (R172): "Zero length is a no-op". -/
def execFoldb (w : Nat) (s : State) : Host.Outcome State Fault Refusal :=
  checked (.foldb w) (fun s => if s.len = 0#32 then s else s.setReg Reg.acc (batchedAcc w s)) s

end Sys2Proof.Machine
end

