-- ==== Sys2Proof/Machine/Powers.lean ====
section
/-! DEFINITION. The powers-table builder: BLDTBL (41_powers_table.md). -/

namespace Sys2Proof.Machine

/-- Entry `k` of a table of `n` powers of `h`: `H^(k+1)` below `n`, cleared and invalid from `n` on
(R151). -/
def buildEntry (h : Block) (n : Nat) (s : State) (k : Nat) : State :=
  if k < n then s.setReg (Reg.t k) (hashPower h k) else s.invalidate (Reg.t k)

/-- All eight entries in order; `h` was read before any is written (R151). -/
def buildTable (h : Block) (n : Nat) (s : State) : State :=
  (List.range Config.tableSize).foldl (buildEntry h n) s

/-- BLDTBL (R151). -/
def execBldtbl (n : Nat) (s : State) : Host.Outcome State Fault Refusal :=
  checked (.bldtbl n) (fun s => buildTable (s.reg Reg.h) n s) s

end Sys2Proof.Machine
end

