-- ==== Sys2Proof/Machine/Dispatch.lean ====
section
/-! DEFINITION. One arm per command of 30_encoding.md R95. -/

namespace Sys2Proof.Machine

/-- The execution of a decoded command, its checks included (60_exceptions.md R241 (3) to (5)). -/
def exec (i : Instr) (s : State) : Host.Outcome State Fault Refusal :=
  match i with
  | .bxor rd rs1 rs2 => Sys2Proof.Machine.execBxor rd rs1 rs2 s
  | .clmul rd rs1 rs2 sel => Sys2Proof.Machine.execClmul rd rs1 rs2 sel s
  | .clmulw rs1 rs2 => Sys2Proof.Machine.execClmulw rs1 rs2 s
  | .clmac rs1 rs2 => Sys2Proof.Machine.execClmac rs1 rs2 s
  | .gfred rd => Sys2Proof.Machine.execGfred rd s
  | .gfmul rd rs1 rs2 => Sys2Proof.Machine.execGfmul rd rs1 rs2 s
  | .bldtbl n => Sys2Proof.Machine.execBldtbl n s
  | .foldh => Sys2Proof.Machine.execFoldh s
  | .foldb w => Sys2Proof.Machine.execFoldb w s
  | .aesenc rd rs1 rs2 => Sys2Proof.Machine.execAesenc rd rs1 rs2 s
  | .aesenclast rd rs1 rs2 => Sys2Proof.Machine.execAesenclast rd rs1 rs2 s
  | .aesblk rd rs1 => Sys2Proof.Machine.execAesblk rd rs1 s
  | .ctrinc k => Sys2Proof.Machine.execCtrinc k s
  | .ctrenc => Sys2Proof.Machine.execCtrenc s
  | .ctrdec => Sys2Proof.Machine.execCtrdec s

end Sys2Proof.Machine
end

