-- ==== Sys2Proof/Machine/Flags.lean ====
section
/-! DEFINITION. The CORE has no condition codes (10_state.md R31). What it has of status: the words the
host reads as `STATUS`, `CFG` and `VALID`, made of the fields State holds (R33, R35, R38). -/

namespace Sys2Proof.Machine

/-- The 4-bit code of a cause (R245). -/
def Cause.code : Cause → BitVec 4
  | .noFault => 0#4
  | .illegal => 1#4
  | .uninit => 2#4
  | .range => 3#4
  | .overlap => 4#4
  | .bus => 5#4

/-- A one-bit field at bit 0 of a word whose other bits are hardwired zero. -/
def bit0Word (b : Bool) : Word := if b then 1#32 else 0#32

/-- `STATUS`: `ERR` in bit 0, `CAUSE` in bits 11:8, all other bits zero (R35). -/
def State.statusWord (s : State) : Word := (s.cause.code.setWidth 32 <<< 8) ||| bit0Word s.err

/-- `CFG`: `KS` in bit 0, bits 31:1 zero (R33). -/
def State.cfgWord (s : State) : Word := bit0Word s.ks

/-- The low `n` bits of `VALID`. -/
def State.validBits (s : State) : Nat → Word
  | 0 => 0#32
  | n + 1 => s.validBits n ||| (if s.valid (Fin.ofNat 32 n) then 1#32 <<< n else 0#32)

/-- `VALID`: bit `i` is `valid(i)`, a view of the lane-valid bits (R38). -/
def State.validWord (s : State) : Word := s.validBits 32

end Sys2Proof.Machine
end

