-- ==== Sys2Proof/Machine/Port.lean ====
section
/-! DEFINITION. What happens between commands: the register port (10_state.md R32 to R42), issuing a
command (60_exceptions.md R241, R248), the host's memory accesses (R256) and hard reset
(70_reset_and_hazards.md R270). -/

namespace Sys2Proof.Machine

/-- What a word of the register port names (R40, R41). -/
inductive PortReg where
  | lane (i : RegIdx) (j : Fin 4)
  | cmd | status | cfg | src | dst | len | valid | ctrl | fcmd
  | reserved
  deriving DecidableEq, Repr

/-- The address map: lanes at byte offsets `0x000 + 16*i + 4*j`, control registers at
`0x200`..`0x220`, the rest reserved (R40, R41). A slot is the byte offset divided by four. -/
def portReg (slot : PortSlot) : PortReg :=
  if slot.val < 128 then .lane (Fin.ofNat 32 (slot.val / 4)) (Fin.ofNat 4 (slot.val % 4))
  else match slot.val with
    | 128 => .cmd
    | 129 => .status
    | 130 => .cfg
    | 131 => .src
    | 132 => .dst
    | 133 => .len
    | 134 => .valid
    | 135 => .ctrl
    | 136 => .fcmd
    | _ => .reserved

/-- What a read returns; it has no side effect on the CORE and works while `ERR = 1`
(R32 to R41, R248). -/
def readPort (s : State) : PortReg → Word
  | .lane i j => laneOf (s.reg i) j.val
  | .cmd => s.lastcmd
  | .status => s.statusWord
  | .cfg => s.cfgWord
  | .src => s.src
  | .dst => s.dst
  | .len => s.len
  | .valid => s.validWord
  | .ctrl => 0#32
  | .fcmd => s.fcmd
  | .reserved => 0#32

/-- A word accepted at `CMD` (R241): `LASTCMD`, then decode, then the command or its fault. -/
def acceptCommand (w : Word) (s : State) : Host.Outcome State Fault Refusal :=
  match decode w with
  | .ok i => exec i { s with lastcmd := w }
  | .error _ => .next (raiseFault .illegal w { s with lastcmd := w })

/-- A write of `CMD`: ignored entirely while `ERR = 1` (R248), else accepted. -/
def issueCommand (w : Word) (s : State) : Host.Outcome State Fault Refusal :=
  if s.err then .next s else acceptCommand w s

/-- A write of the port register `r` while `ERR = 0`, but for `CMD` and `CTRL`: `CFG` keeps bit 0,
read-only and reserved registers ignore it (R33 to R41). -/
def writeReg (r : PortReg) (v : Word) (s : State) : State :=
  match r with
  | .lane i j => s.setLane i j v
  | .cfg => { s with ks := v.getLsbD 0 }
  | .src => { s with src := v }
  | .dst => { s with dst := v }
  | .len => { s with len := v }
  | .cmd => s
  | .status => s
  | .valid => s
  | .ctrl => s
  | .fcmd => s
  | .reserved => s

/-- A write of `CTRL`: soft reset if bit 0 is set, no effect otherwise; accepted while `ERR = 1`
(R39, R248, R271). -/
def writeCtrl (v : Word) (s : State) : State := if v.getLsbD 0 then resetCore s else s

/-- A write of a port register (R41): every write but that of `CTRL` is ignored while `ERR = 1`
(R36, R248). -/
def writePort (r : PortReg) (v : Word) (s : State) : Host.Outcome State Fault Refusal :=
  match r with
  | .cmd => issueCommand v s
  | .ctrl => .next (writeCtrl v s)
  | .lane i j => .next (if s.err then s else writeReg (.lane i j) v s)
  | .status => .next (if s.err then s else writeReg .status v s)
  | .cfg => .next (if s.err then s else writeReg .cfg v s)
  | .src => .next (if s.err then s else writeReg .src v s)
  | .dst => .next (if s.err then s else writeReg .dst v s)
  | .len => .next (if s.err then s else writeReg .len v s)
  | .valid => .next (if s.err then s else writeReg .valid v s)
  | .fcmd => .next (if s.err then s else writeReg .fcmd v s)
  | .reserved => .next (if s.err then s else writeReg .reserved v s)

/-- The word would write buffer memory if issued now: `ERR = 0`, a command with an output buffer,
every check passed (R241, R244). -/
def writesMemory (w : Word) (s : State) : Bool :=
  !s.err && match decode w with
    | .ok i => writesOutput i && decide (firstFailure i s = .noFault)
    | .error _ => false

/-- Hard reset while `w` is executing (R270): the registers take their reset values; the bytes of
`[DST, DST+LEN)` are unspecified if `w` is a codec command that got past its checks. -/
def resetDuring (w : Word) (s : State) : State :=
  if writesMemory w s then
    resetCore { s with
      mem := s.mem.writeBytes s.dst.toNat
        ((List.range s.len.toNat).map (fun k => Config.midResetByte s.draws (s.dst.toNat + k)))
      draws := s.draws + 1 }
  else resetCore s

/-- One action (R256, R270). -/
def perform (a : HostAction) (s : State) : Host.Outcome State Fault Refusal :=
  match a with
  | .portRead slot => .next { s with seen := .port slot (readPort s (portReg slot)) :: s.seen }
  | .portWrite slot v => writePort (portReg slot) v s
  | .memRead a => .next { s with seen := .mem a (s.mem.read a.toNat) :: s.seen }
  | .memWrite a v => .next { s with mem := s.mem.write a.toNat v }
  | .hardReset => .next (resetCore s)
  | .hardResetDuring w => .next (resetDuring w s)

/-- Take the next action off the list and perform it (R15, R30); with no action left the CORE is idle
and holds all its state (R257, R272). -/
def runNext (s : State) : Host.Outcome State Fault Refusal :=
  match s.pending with
  | [] => .next s
  | a :: rest => perform a { s with pending := rest, cp := s.cp + 1 }

end Sys2Proof.Machine
end

