-- ==== Sys2Proof/Machine/Step.lean ====
section
/-! DEFINITION. The step: the next action of the host's list, a whole command if it is a write of `CMD`
(00_scope.md R15). -/

namespace Sys2Proof.Machine

/-- One step. -/
def step (s : State) : Host.Outcome State Fault Refusal := runNext s

/-- The port slot of `CMD`, byte offset `0x200` (R40). -/
def cmdSlot : PortSlot := 128

/-- `s` with the command word as the host's next action, so that the next step issues it
(10_state.md R30, R32; log entry 4). -/
def State.withFetchWord (s : State) (nbits w : Nat) : State :=
  { s with pending := .portWrite cmdSlot (BitVec.ofNat 32 (w % 2 ^ nbits)) :: s.pending }

end Sys2Proof.Machine
end

