-- ==== Sys2Proof/Safety.lean ====
section
/-! DEFINITION. The terms claims are stated in: a safe run, the invariant of the machine, what it means
that a buffer is usable, that the table holds powers, and the polynomial reading of a Block
(00_scope.md R11, R15; 20_memory.md R61, R70; 41_powers_table.md R150). -/

namespace Sys2Proof.Machine

/-- `k` steps end in a next state without a CORE fault: R15, "a run that ends with `STATUS.ERR = 1`
ended in a fault", and of such a run no claim about results is made. -/
def SafeRun (k : Nat) (s t : State) : Prop :=
  Host.Core.run Sys2Proof.core k s = .next t ∧ t.err = false

/-- What every step keeps. -/
structure Inv (s : State) : Prop where
  /-- Buffer memory is in canonical form, all of it inside the address space (R60). -/
  memory : s.mem.wf
  /-- `CAUSE` is 0 exactly while `ERR = 0` (R35, R245). -/
  cause : s.err = true ↔ s.cause ≠ .noFault
  /-- `FCMD` is 0 while `ERR = 0` (R37). -/
  noFaultWord : s.err = false → s.fcmd = 0#32
  /-- While `ERR = 1` the word that faulted is the last one accepted (R241, R248). -/
  faultWord : s.err = true → s.fcmd = s.lastcmd
  /-- A lane that is not valid holds zero: never written since reset, or cleared by BLDTBL
  (R27, R29, R151). -/
  lanes : ∀ (i : RegIdx) (j : Fin 4), s.xv[i].getLsbD j.val = false → laneOf s.x[i] j.val = 0#32

/-- Every register of the list is valid: its four lanes have been written (R10, R27). -/
def AllValid (s : State) (rs : List RegIdx) : Prop := ∀ r ∈ rs, s.xv[r] = 0xF#4

/-- `s` with the fault of `c` latched by the command word `w`, and nothing else changed (R243). -/
def latched (c : Cause) (w : Word) (s : State) : State :=
  { s with err := true, cause := c, fcmd := w }

/-- The address is in one of the regions (R60). -/
def InRegions (rs : List Region) (a : Nat) : Prop := ∃ r ∈ rs, r.base ≤ a ∧ a < r.base + r.size

/-- The input buffer is usable: it does not wrap and all of it is readable (R61 (a), (c)). -/
def InputUsable (s : State) : Prop :=
  s.src.toNat + s.len.toNat ≤ 4294967296 ∧
    ∀ k, k < s.len.toNat → InRegions s.readable (s.src.toNat + k)

/-- The output buffer is usable: it does not wrap and all of it is writable (R61 (a), (c)). -/
def OutputUsable (s : State) : Prop :=
  s.dst.toNat + s.len.toNat ≤ 4294967296 ∧
    ∀ k, k < s.len.toNat → InRegions s.writable (s.dst.toNat + k)

/-- `[SRC, SRC+LEN)` and `[DST, DST+LEN)` have an address in common (R70). -/
def BuffersMeet (s : State) : Prop :=
  ∃ a, (s.src.toNat ≤ a ∧ a < s.src.toNat + s.len.toNat) ∧
    (s.dst.toNat ≤ a ∧ a < s.dst.toNat + s.len.toNat)

/-- The round-key registers `RK[0..NR]`: x8..x18 when `CFG.KS = 0`, x8..x22 when it is 1 (R196). -/
def scheduleRegs (s : State) : List RegIdx :=
  if s.ks then [8, 9, 10, 11, 12, 13, 14, 15, 16, 17, 18, 19, 20, 21, 22]
  else [8, 9, 10, 11, 12, 13, 14, 15, 16, 17, 18]

/-- The registers CTRENC and CTRDEC need valid, the table of R212 written out. -/
def CodecRegistersValid (s : State) : Prop :=
  AllValid s [26] ∧
    (1 ≤ s.len.toNat → AllValid s [24] ∧ AllValid s (scheduleRegs s)) ∧
    (96 ≤ s.len.toNat → AllValid s [0, 1, 2, 3, 4, 5]) ∧
    (s.len.toNat % 96 ≠ 0 → AllValid s [0])

/-- CTRENC and CTRDEC run from `s` without a fault (R212, R244). -/
def CodecReady (s : State) : Prop :=
  CodecRegistersValid s ∧ InputUsable s ∧ OutputUsable s ∧ ¬ BuffersMeet s

/-- The first `n` table entries hold the powers of `h`: `T[k] = h^(k+1)` (R150, R153). -/
def TableHolds (s : State) (h : Block) (n : Nat) : Prop :=
  ∀ k, k < n → s.x[Fin.ofNat 32 k] = hashPower h k

/-- Keystream byte `k` of a codec command: byte `k mod 16` of the encryption of the initial counter
advanced by `k div 16` (R213, R215, R216). -/
def keystreamByte (s : State) (k : Nat) : Byte :=
  byteOf (encBlock (fun n => s.x[Fin.ofNat 32 (8 + n)]) (if s.ks then 14 else 10)
    (ctrAdd (initialCounter s.x[(26 : RegIdx)]) (k / 16))) (k % 16)

/-- The accumulator after folding the blocks the codec's way: `q` groups of six from the front, then
the rest one at a time with `T[0]` (R215, R216, R218). -/
def codecFold (s : State) (q : Nat) (bs : List Block) : Block :=
  hornerFold (foldGroups (fun k => s.x[Fin.ofNat 32 k]) 6 q s.x[(24 : RegIdx)] (bs.take (6 * q)))
    s.x[(0 : RegIdx)] (bs.drop (6 * q))

/-- The polynomial over GF(2) whose coefficient of `X^k` is bit `k` (R11). -/
noncomputable def polyOf {n : Nat} (v : BitVec n) : Polynomial (ZMod 2) :=
  ∑ k ∈ Finset.range n, if v.getLsbD k then Polynomial.X ^ k else 0

/-- The field polynomial `p = x^128 + POLY` (R11). -/
noncomputable def fieldPoly : Polynomial (ZMod 2) := Polynomial.X ^ 128 + polyOf Config.poly

/-- Multiplication in GF(2^8) modulo `y^8 + y^4 + y^3 + y + 1` (R191, R193), by the bits of `b` from
bit `n - 1` down. -/
def gf256MulBits (a b : Byte) : Nat → Byte
  | 0 => 0#8
  | n + 1 => gfDouble (gf256MulBits a (b >>> 1) n) ^^^ (if b.getLsbD 0 then a else 0#8)

/-- Multiplication in GF(2^8) (R191). -/
def gf256Mul (a b : Byte) : Byte := gf256MulBits a b 8

/-- The affine part of the S-box: `b xor rotl8(b,1) xor .. xor rotl8(b,4) xor 0x63` (R191). -/
def sboxAffine (b : Byte) : Byte :=
  b ^^^ b.rotateLeft 1 ^^^ b.rotateLeft 2 ^^^ b.rotateLeft 3 ^^^ b.rotateLeft 4 ^^^ 0x63#8

end Sys2Proof.Machine
end

