-- ==== Sys2Proof/Certificates/Slice0/Obligations.lean ====
section
/-! DEFINITION. The statements for the provers. R<n> are the numbered rules of `spec/`.
Register numbers are those of 10_state.md R21: T 0..7, RK 8..22, H 23, ACC 24, CTR 25, TAG 26,
V 27..29, PL 30, PH 31; port slots are byte offsets divided by four (R40, R41). -/

open Sys2Proof Sys2Proof.Machine

/-! ## Encoding -/

/-- R103: the worked encodings, each word decoding to the command it was worked for. -/
def Obligations.WorkedWordsDecode : Prop :=
  decode 0x06EEF800#32 = .ok (.gfmul 29 27 28) ∧
  decode 0x02EEF803#32 = .ok (.clmul 29 27 28 3#2) ∧
  decode 0x0306F800#32 = .ok (.clmulw 27 28) ∧
  decode 0x0405EE00#32 = .ok (.clmac 23 23) ∧
  decode 0x05E80000#32 = .ok (.gfred 29) ∧
  decode 0x01DE5000#32 = .ok (.bxor 27 25 8) ∧
  decode 0x30DED200#32 = .ok (.aesenc 27 27 9) ∧
  decode 0x31DEE400#32 = .ok (.aesenclast 27 27 18) ∧
  decode 0x32E64000#32 = .ok (.aesblk 28 25) ∧
  decode 0x10000001#32 = .ok (.bldtbl 2) ∧
  decode 0x21000002#32 = .ok (.foldb 3) ∧
  decode 0x20000000#32 = .ok .foldh ∧
  decode 0x40000001#32 = .ok (.ctrinc 1) ∧
  decode 0x40000006#32 = .ok (.ctrinc 6) ∧
  decode 0x41000000#32 = .ok .ctrenc ∧
  decode 0x42000000#32 = .ok .ctrdec

/-- No bit of an encoding is dropped: every well-formed command comes back from its own word
(R90, R92, R95, R96). -/
def Obligations.DecodeInvertsEncode : Prop :=
  ∀ i : Instr, i.wellFormed = true → decode (encode i) = .ok i

/-- An accepted word is the only word of its command, and that command is well formed
(R90 to R93, R96). So the word `FCMD` records is the word that was written (log entry 11). -/
def Obligations.EncodeInvertsDecode : Prop :=
  ∀ (w : Word) (i : Instr), decode w = .ok i → i.wellFormed = true ∧ encode i = w

/-- R91, with the (match, mask) pairs of R95: a word is a command exactly if it selects a row, and no
word selects two rows. -/
def Obligations.RowsSelectAtMostOneCommand : Prop :=
  let rows : List (Word × Word) :=
    [(0x01000000#32, 0xFF0001FF#32), (0x02000000#32, 0xFF0001FC#32),
     (0x03000000#32, 0xFFF801FF#32), (0x04000000#32, 0xFFF801FF#32),
     (0x05000000#32, 0xFF07FFFF#32), (0x06000000#32, 0xFF0001FF#32),
     (0x10000000#32, 0xFFFFFFF8#32), (0x20000000#32, 0xFFFFFFFF#32),
     (0x21000000#32, 0xFFFFFFF8#32), (0x30000000#32, 0xFF0001FF#32),
     (0x31000000#32, 0xFF0001FF#32), (0x32000000#32, 0xFF003FFF#32),
     (0x40000000#32, 0xFFFFFE00#32), (0x41000000#32, 0xFFFFFFFF#32),
     (0x42000000#32, 0xFFFFFFFF#32)]
  ∀ w : Word,
    ((∃ i, decode w = .ok i) ↔ ∃ r ∈ rows, w &&& r.2 = r.1) ∧
    (∀ r ∈ rows, ∀ r' ∈ rows, w &&& r.2 = r.1 → w &&& r'.2 = r'.1 → r = r')

/-- R99: the illegal words are exactly those with a reserved `op` and those with an assigned `op` and a
bit set in an unused field; the host's write of one, while `ERR = 0`, latches `ILLEGAL` with the word
in `FCMD` (and in `LASTCMD`, R241) and changes nothing else. The second component of a pair is the
mask of the fields the command does not use (R95). -/
def Obligations.IllegalWordsLatchIllegal : Prop :=
  let unused : List (BitVec 8 × Word) :=
    [(0x01#8, 0x000001FF#32), (0x02#8, 0x000001FC#32), (0x03#8, 0x00F801FF#32),
     (0x04#8, 0x00F801FF#32), (0x05#8, 0x0007FFFF#32), (0x06#8, 0x000001FF#32),
     (0x10#8, 0x00FFFFF8#32), (0x20#8, 0x00FFFFFF#32), (0x21#8, 0x00FFFFF8#32),
     (0x30#8, 0x000001FF#32), (0x31#8, 0x000001FF#32), (0x32#8, 0x00003FFF#32),
     (0x40#8, 0x00FFFE00#32), (0x41#8, 0x00FFFFFF#32), (0x42#8, 0x00FFFFFF#32)]
  (∀ w : Word, decode w = .error .reservedOp ↔ ∀ u ∈ unused, w.extractLsb' 24 8 ≠ u.1) ∧
  (∀ w : Word, decode w = .error .unusedField ↔
    ∃ u ∈ unused, w.extractLsb' 24 8 = u.1 ∧ w &&& u.2 ≠ 0#32) ∧
  (decode 0x03080000#32 = .error .unusedField ∧ decode 0x02000004#32 = .error .unusedField ∧
    decode 0x20000001#32 = .error .unusedField ∧ decode 0x10000008#32 = .error .unusedField) ∧
  (∀ (s : State) (w : Word) (e : IllegalWord), s.err = false → decode w = .error e →
    perform (.portWrite 128 w) s = .next (latched .illegal w { s with lastcmd := w }))

/-! ## The step -/

/-- A write of `CMD` while `ERR = 0` whose word decodes to `i` is one step, and that step is `exec i`
after `LASTCMD` took the word (R15, R32, R241). The list and its index move on by one (R30; that the
list is held in the state is the model's, log entry 4). -/
def Obligations.StepRunsTheDecodedCommand : Prop :=
  ∀ (s : State) (w : Word) (rest : List HostAction) (i : Instr),
    s.pending = .portWrite 128 w :: rest → s.err = false → decode w = .ok i →
    step s = exec i { s with pending := rest, cp := s.cp + 1, lastcmd := w }

/-- A step takes the next action off the host's list and performs it (R15, R30, R256); with no action left
the CORE is idle and holds all its state (R257, R272). The list and the idle step are the model's, log
entry 4. -/
def Obligations.StepTakesTheNextAction : Prop :=
  (∀ (s : State) (a : HostAction) (rest : List HostAction), s.pending = a :: rest →
    step s = perform a { s with pending := rest, cp := s.cp + 1 }) ∧
  ∀ s : State, s.pending = [] → step s = .next s

/-- R15: "there is no refusal outcome inside the hardware", and a CORE fault is a next state with the
latch set (log entry 1): from every state, whatever the host does, the step answers a next state. -/
def Obligations.EveryStepAnswersNext : Prop := ∀ s : State, ∃ t, step s = .next t

/-- The invariant holds after every step, from every state that meets it: memory stays in canonical
form inside the address space, `CAUSE` is nonzero exactly while `ERR = 1`, `FCMD` is 0 while `ERR = 0`
and the last accepted word otherwise, a lane that is not valid holds zero
(R27, R29, R35, R37, R60, R61, R151, R241, R248). -/
def Obligations.StepKeepsInv : Prop := ∀ s t : State, Inv s → step s = .next t → Inv t

/-- The state after reset meets the invariant. -/
def Obligations.ResetMeetsInv : Prop := Inv State.reset

/-- R248: while `ERR = 1` every port write but that of 1 to `CTRL` bit 0 is ignored, reads return what
they always return, and nothing but a reset clears `ERR`. That a returned value is recorded in `seen` is
the model's choice, not the rule's (log entry 7). -/
def Obligations.FrozenUntilReset : Prop :=
  ∀ s : State, s.err = true →
    (∀ slot v, (slot ≠ 135 ∨ v.getLsbD 0 = false) → perform (.portWrite slot v) s = .next s) ∧
    (∀ slot, perform (.portRead slot) s =
      .next { s with seen := .port slot (readPort s (portReg slot)) :: s.seen }) ∧
    (∀ v : Word, v.getLsbD 0 = true → ∃ t, perform (.portWrite 135 v) s = .next t ∧ t.err = false) ∧
    (∀ a t, perform a s = .next t → t.err = false →
      (∃ v, a = .portWrite 135 v ∧ v.getLsbD 0 = true) ∨ a = .hardReset ∨
        ∃ w, a = .hardResetDuring w)

/-- R46 (with R270, R271): hard reset and soft reset put every Block register, every lane-valid bit and
every control register at zero and leave buffer memory, the platform and the model's own fields alone;
`State.reset` has those values. -/
def Obligations.ResetValues : Prop :=
  (∀ (s : State) (a : HostAction),
    (a = .hardReset ∨ ∃ v : Word, v.getLsbD 0 = true ∧ a = .portWrite 135 v) →
    perform a s = .next { State.reset with
      mem := s.mem, readable := s.readable, writable := s.writable, pending := s.pending,
      cp := s.cp, seen := s.seen, draws := s.draws }) ∧
  (∀ i : RegIdx, State.reset.x[i] = 0#128 ∧ State.reset.xv[i] = 0#4) ∧
  State.reset.ks = false ∧ State.reset.src = 0#32 ∧ State.reset.dst = 0#32 ∧
  State.reset.len = 0#32 ∧ State.reset.err = false ∧ State.reset.cause = .noFault ∧
  State.reset.fcmd = 0#32 ∧ State.reset.lastcmd = 0#32

/-- A hard reset in the middle of a command (R270): the registers take their reset values, and no byte
outside `[DST, DST+LEN)` changes; a command with no output buffer, a word that faults and a word that is
ignored leave all of memory alone. What the output bytes hold is a free value (log entry 6). -/
def Obligations.MidCommandResetOpensOnlyTheOutput : Prop :=
  ∀ (s : State) (w : Word) (rest : List HostAction),
    s.mem.wf → s.pending = .hardResetDuring w :: rest →
    ∃ t, step s = .next t ∧
      t = { State.reset with
        mem := t.mem, readable := s.readable, writable := s.writable, pending := rest,
        cp := s.cp + 1, seen := s.seen, draws := t.draws } ∧
      (∀ a, ¬ (s.dst.toNat ≤ a ∧ a < s.dst.toNat + s.len.toNat) → t.mem.read a = s.mem.read a) ∧
      ((s.err = true ∨ (decode w ≠ .ok .ctrenc ∧ decode w ≠ .ok .ctrdec) ∨ ¬ CodecReady s) →
        t.mem = s.mem ∧ t.draws = s.draws)

/-! ## The register port -/

/-- What the host's reads return, and that they change nothing else (R32 to R41): lanes, `LASTCMD`,
`STATUS` bit by bit, `CFG`, `SRC`, `DST`, `LEN`, `VALID` bit by bit, `CTRL` zero, `FCMD`, reserved
offsets zero. That a returned value is recorded in `seen` is the model's (log entry 7). -/
def Obligations.PortReadsReturn : Prop :=
  ∀ (s : State) (slot : PortSlot) (rest : List HostAction), s.pending = .portRead slot :: rest →
    ∃ v : Word,
      step s = .next { s with
        pending := rest, cp := s.cp + 1, seen := .port slot v :: s.seen } ∧
      (∀ (i : RegIdx) (j : Fin 4), slot.val = 4 * i.val + j.val →
        v = s.x[i].extractLsb' (32 * j.val) 32) ∧
      (slot = 128 → v = s.lastcmd) ∧
      (slot = 129 → v.getLsbD 0 = s.err ∧ v.extractLsb' 1 7 = 0#7 ∧
        v.extractLsb' 8 4 = (match s.cause with
          | .noFault => 0#4 | .illegal => 1#4 | .uninit => 2#4
          | .range => 3#4 | .overlap => 4#4 | .bus => 5#4) ∧
        v.extractLsb' 12 20 = 0#20) ∧
      (slot = 130 → v.getLsbD 0 = s.ks ∧ v.extractLsb' 1 31 = 0#31) ∧
      (slot = 131 → v = s.src) ∧ (slot = 132 → v = s.dst) ∧ (slot = 133 → v = s.len) ∧
      (slot = 134 → ∀ i : RegIdx, v.getLsbD i.val = decide (s.xv[i] = 0xF#4)) ∧
      (slot = 135 → v = 0#32) ∧ (slot = 136 → v = s.fcmd) ∧ (136 < slot.val → v = 0#32)

/-- A host write of a lane while `ERR = 0` (R27, R41): that lane takes the value and its valid bit is
set; the other lanes, their valid bits, the other registers and everything else stay. -/
def Obligations.LaneWriteSetsLaneAndValidBit : Prop :=
  ∀ (s : State) (i : RegIdx) (j : Fin 4) (slot : PortSlot) (v : Word) (rest : List HostAction),
    slot.val = 4 * i.val + j.val → s.pending = .portWrite slot v :: rest → s.err = false →
    ∃ t, step s = .next t ∧
      t = { s with x := t.x, xv := t.xv, pending := rest, cp := s.cp + 1 } ∧
      (∀ k : Fin 4, t.x[i].extractLsb' (32 * k.val) 32 =
        if k = j then v else s.x[i].extractLsb' (32 * k.val) 32) ∧
      (∀ k : Fin 4, t.xv[i].getLsbD k.val = (decide (k = j) || s.xv[i].getLsbD k.val)) ∧
      (∀ r : RegIdx, r ≠ i → t.x[r] = s.x[r] ∧ t.xv[r] = s.xv[r])

/-- R41: "The host writes a whole Block `B` to register `i` as four lane writes, in any order; the
register is valid once all four have been made." -/
def Obligations.FourLaneWritesMakeABlock : Prop :=
  ∀ (s : State) (i : RegIdx) (b : Block) (order : List (Fin 4)) (rest : List HostAction),
    order.Perm [0, 1, 2, 3] → s.err = false →
    s.pending = order.map (fun j => .portWrite (Fin.ofNat 1024 (4 * i.val + j.val))
      (b.extractLsb' (32 * j.val) 32)) ++ rest →
    Host.Core.run Sys2Proof.core 4 s = .next { s with
      x := s.x.set i b, xv := s.xv.set i 0xF#4, pending := rest, cp := s.cp + 4 }

/-- Writes of the control registers while `ERR = 0`: `CFG` keeps bit 0 only, `SRC`, `DST`, `LEN` take
all 32 bits, writes of `STATUS`, `VALID`, `FCMD`, of `CTRL` with bit 0 clear and of reserved offsets are
ignored (R33, R34, R35, R37 to R41). -/
def Obligations.ControlRegisterWrites : Prop :=
  ∀ (s : State) (slot : PortSlot) (v : Word) (rest : List HostAction),
    s.pending = .portWrite slot v :: rest → s.err = false →
    (slot = 130 → step s = .next { s with pending := rest, cp := s.cp + 1, ks := v.getLsbD 0 }) ∧
    (slot = 131 → step s = .next { s with pending := rest, cp := s.cp + 1, src := v }) ∧
    (slot = 132 → step s = .next { s with pending := rest, cp := s.cp + 1, dst := v }) ∧
    (slot = 133 → step s = .next { s with pending := rest, cp := s.cp + 1, len := v }) ∧
    (slot = 129 ∨ slot = 134 ∨ (slot = 135 ∧ v.getLsbD 0 = false) ∨ 136 ≤ slot.val →
      step s = .next { s with pending := rest, cp := s.cp + 1 })

/-! ## Memory -/

/-- `MemRead` after `MemWrite` of the same `n` bytes, `1 <= n <= 16`, gives the low `n` bytes written,
zero-extended; "Bytes outside `addr .. addr+n-1` are not written" (R62, R63, R66). -/
def Obligations.MemReadReturnsWhatMemWriteStored : Prop :=
  ∀ (m : Memory) (a n : Nat) (v : Block), m.wf → 1 ≤ n → n ≤ 16 →
    (m.writeBlock a n v).readBlock a n = v &&& ((1#128 <<< (8 * n)) - 1#128) ∧
    ∀ x, ¬ (a ≤ x ∧ x < a + n) → (m.writeBlock a n v).read x = m.read x

/-- The host's own accesses to buffer memory (R43, R256): a write changes that byte and nothing else, a
read returns the byte and changes nothing, whatever `ERR` is. That they come a byte at a time and that a
returned byte is recorded in `seen` is the model's (log entries 7 and 13). -/
def Obligations.HostMemoryAccesses : Prop :=
  ∀ (s : State) (a : Word) (rest : List HostAction), s.mem.wf →
    (∀ v : Byte, s.pending = .memWrite a v :: rest →
      ∃ t, step s = .next t ∧ t = { s with mem := t.mem, pending := rest, cp := s.cp + 1 } ∧
        t.mem.wf ∧ ∀ x, t.mem.read x = if x = a.toNat then v else s.mem.read x) ∧
    (s.pending = .memRead a :: rest →
      step s = .next { s with
        pending := rest, cp := s.cp + 1, seen := .mem a (s.mem.read a.toNat) :: s.seen })

/-- The canonical form determines the memory: two of them that read the same at every address are the
same list (the model's representation of 20_memory.md R60). -/
def Obligations.EqualReadsEqualMemories : Prop :=
  ∀ m m' : Memory, m.wf → m'.wf → (∀ a, m.read a = m'.read a) → m = m'

/-- The blocks of a buffer of `n` bytes (R65, R66, R160): one for every sixteen bytes begun, byte `i` of
block `k` being byte `16k + i` of the buffer, zero past its end. -/
def Obligations.BufferBlocksAreTheBytes : Prop :=
  ∀ (m : Memory) (a n : Nat),
    (m.bufferBlocks a n).length = (n + 15) / 16 ∧
    ∀ k i, k < (n + 15) / 16 → i < 16 →
      byteOf ((m.bufferBlocks a n).getD k 0#128) i =
        if 16 * k + i < n then m.read (a + (16 * k + i)) else 0#8

/-! ## Faults -/

/-- Faults are precise (R242, R243): a word written to `CMD` while `ERR = 0` either latches one of the
five causes with that word in `FCMD`, all else but `LASTCMD` (R241) as it was before, or leaves the
latch as it was. -/
def Obligations.CommandFaultsPreciselyOrNotAtAll : Prop :=
  ∀ (w : Word) (s : State), s.err = false → ∃ t, issueCommand w s = .next t ∧
    ((∃ c ∈ [Cause.illegal, Cause.uninit, Cause.range, Cause.overlap, Cause.bus],
        t = latched c w { s with lastcmd := w }) ∨
      (t.err = false ∧ t.cause = s.cause ∧ t.fcmd = s.fcmd ∧ t.lastcmd = w))

/-- R250, with the conditions of R61, R70 and R244: a word accepted at `CMD` raises at most one fault, the
first failing check in the order ILLEGAL, UNINIT, RANGE, OVERLAP, BUS; `FCMD` takes the word (R243). -/
def Obligations.FirstFailingCheckFaults : Prop :=
  let reads (i : Instr) : Prop :=
    i = .foldh ∨ (∃ w, i = .foldb w) ∨ i = .ctrenc ∨ i = .ctrdec
  let writes (i : Instr) : Prop := i = .ctrenc ∨ i = .ctrdec
  let inRange (i : Instr) (s : State) : Prop :=
    (reads i → s.src.toNat + s.len.toNat ≤ 4294967296) ∧
    (writes i → s.dst.toNat + s.len.toNat ≤ 4294967296)
  let mapped (i : Instr) (s : State) : Prop :=
    (reads i → ∀ k, k < s.len.toNat → InRegions s.readable (s.src.toNat + k)) ∧
    (writes i → ∀ k, k < s.len.toNat → InRegions s.writable (s.dst.toNat + k))
  let fails (c : Cause) (w : Word) (s : State) : Prop :=
    acceptCommand w s = .next (latched c w { s with lastcmd := w })
  (∀ (w : Word) (s : State) (e : IllegalWord), decode w = .error e → fails .illegal w s) ∧
  ∀ (w : Word) (i : Instr) (s : State), decode w = .ok i →
    (¬ AllValid s (validitySet s i) → fails .uninit w s) ∧
    (AllValid s (validitySet s i) → ¬ inRange i s → fails .range w s) ∧
    (AllValid s (validitySet s i) → inRange i s → writes i → BuffersMeet s →
      fails .overlap w s) ∧
    (AllValid s (validitySet s i) → inRange i s → ¬ (writes i ∧ BuffersMeet s) → ¬ mapped i s →
      fails .bus w s) ∧
    (AllValid s (validitySet s i) → inRange i s → ¬ (writes i ∧ BuffersMeet s) → mapped i s →
      ∃ t, acceptCommand w s = .next t ∧ t.err = s.err ∧ t.cause = s.cause ∧ t.fcmd = s.fcmd)

/-- R246: the validity set of each command, as registers by number; it depends on the command, `CFG.KS`
and `LEN` only, and a command with a member that is not valid faults UNINIT whatever else holds. -/
def Obligations.ValiditySetsAreTheTable : Prop :=
  ∀ s : State,
    (∀ rd rs1 rs2, validitySet s (.bxor rd rs1 rs2) = [rs1, rs2] ∧
      (∀ sel, validitySet s (.clmul rd rs1 rs2 sel) = [rs1, rs2]) ∧
      validitySet s (.gfmul rd rs1 rs2) = [rs1, rs2] ∧
      validitySet s (.aesenc rd rs1 rs2) = [rs1, rs2] ∧
      validitySet s (.aesenclast rd rs1 rs2) = [rs1, rs2] ∧
      validitySet s (.clmulw rs1 rs2) = [rs1, rs2] ∧
      validitySet s (.clmac rs1 rs2) = [rs1, rs2, 30, 31] ∧
      validitySet s (.gfred rd) = [30, 31] ∧
      validitySet s (.aesblk rd rs1) = rs1 :: scheduleRegs s) ∧
    (∀ n, validitySet s (.bldtbl n) = [23]) ∧
    (∀ k, validitySet s (.ctrinc k) = [25]) ∧
    (s.len = 0#32 → validitySet s .foldh = [] ∧ ∀ w, validitySet s (.foldb w) = []) ∧
    (s.len ≠ 0#32 → (∀ r, r ∈ validitySet s .foldh ↔ r = 24 ∨ r = 23) ∧
      ∀ w, 1 ≤ w → w ≤ 8 → ∀ r, r ∈ validitySet s (.foldb w) ↔ r = 24 ∨ r.val < w) ∧
    (AllValid s (validitySet s .ctrenc) ↔ CodecRegistersValid s) ∧
    (AllValid s (validitySet s .ctrdec) ↔ CodecRegistersValid s) ∧
    (∀ (i : Instr) (s' : State), s'.ks = s.ks → s'.len = s.len →
      validitySet s' i = validitySet s i) ∧
    (∀ (w : Word) (i : Instr), decode w = .ok i → ¬ AllValid s (validitySet s i) →
      acceptCommand w s = .next (latched .uninit w { s with lastcmd := w }))

/-- R280: which commands fault, and how, never depends on the contents of a Block register or of a
buffer byte: two states that agree on `CFG`, `SRC`, `DST`, `LEN`, the valid bits and the platform's
predicates fault alike. -/
def Obligations.FaultsIgnoreData : Prop :=
  ∀ (i : Instr) (s s' : State),
    s.xv = s'.xv → s.ks = s'.ks → s.src = s'.src → s.dst = s'.dst → s.len = s'.len →
    s.readable = s'.readable → s.writable = s'.writable → s.err = false → s'.err = false →
    ∃ t t', exec i s = .next t ∧ exec i s' = .next t' ∧ t.err = t'.err ∧
      (t.err = true → t.cause = t'.cause ∧ t.fcmd = t'.fcmd)

/-! ## Field arithmetic commands -/

/-- R121: BXOR writes the xor of its sources to `rd` and makes it valid; nothing else changes. -/
def Obligations.BxorResult : Prop :=
  ∀ (rd rs1 rs2 : RegIdx) (s : State), s.xv[rs1] = 0xF#4 → s.xv[rs2] = 0xF#4 →
    exec (.bxor rd rs1 rs2) s = .next { s with
      x := s.x.set rd (s.x[rs1] ^^^ s.x[rs2]), xv := s.xv.set rd 0xF#4 }

/-- R122: CLMUL writes the carry-less product of the selected halves; `sel[0]` selects the half of
`x[rs1]`, `sel[1]` that of `x[rs2]`, 0 the low half. Nothing else changes. -/
def Obligations.ClmulResult : Prop :=
  ∀ (rd rs1 rs2 : RegIdx) (sel : BitVec 2) (s : State),
    s.xv[rs1] = 0xF#4 → s.xv[rs2] = 0xF#4 →
    exec (.clmul rd rs1 rs2 sel) s = .next { s with
      x := s.x.set rd (clmul64
        (if sel.getLsbD 0 then s.x[rs1].extractLsb' 64 64 else s.x[rs1].extractLsb' 0 64)
        (if sel.getLsbD 1 then s.x[rs2].extractLsb' 64 64 else s.x[rs2].extractLsb' 0 64))
      xv := s.xv.set rd 0xF#4 }

/-- R124: CLMULW writes the two halves of the product to `PL` and `PH`, whatever they held; nothing
else changes. -/
def Obligations.ClmulwResult : Prop :=
  ∀ (rs1 rs2 : RegIdx) (s : State), s.xv[rs1] = 0xF#4 → s.xv[rs2] = 0xF#4 →
    exec (.clmulw rs1 rs2) s = .next { s with
      x := (s.x.set 30 (clmulLow s.x[rs1] s.x[rs2])).set 31 (clmulHigh s.x[rs1] s.x[rs2])
      xv := (s.xv.set 30 0xF#4).set 31 0xF#4 }

/-- R125: CLMAC xors the product onto `PL` and `PH`, sources read first; nothing else changes. -/
def Obligations.ClmacResult : Prop :=
  ∀ (rs1 rs2 : RegIdx) (s : State), s.xv[rs1] = 0xF#4 → s.xv[rs2] = 0xF#4 →
    s.xv[(30 : RegIdx)] = 0xF#4 → s.xv[(31 : RegIdx)] = 0xF#4 →
    exec (.clmac rs1 rs2) s = .next { s with
      x := (s.x.set 30 (s.x[(30 : RegIdx)] ^^^ clmulLow s.x[rs1] s.x[rs2])).set 31
        (s.x[(31 : RegIdx)] ^^^ clmulHigh s.x[rs1] s.x[rs2])
      xv := (s.xv.set 30 0xF#4).set 31 0xF#4 }

/-- R128: GFRED writes `Reduce(PH, PL)` to `rd`; nothing else changes, `PL` and `PH` included unless
`rd` names one. -/
def Obligations.GfredResult : Prop :=
  ∀ (rd : RegIdx) (s : State), s.xv[(30 : RegIdx)] = 0xF#4 → s.xv[(31 : RegIdx)] = 0xF#4 →
    exec (.gfred rd) s = .next { s with
      x := s.x.set rd (gfReduce s.x[(31 : RegIdx)] s.x[(30 : RegIdx)]), xv := s.xv.set rd 0xF#4 }

/-- R130: GFMUL writes the reduced product, `Reduce` of the two halves of the carry-less product;
nothing else changes, `PL` and `PH` included unless `rd` names one. -/
def Obligations.GfmulResult : Prop :=
  ∀ (rd rs1 rs2 : RegIdx) (s : State), s.xv[rs1] = 0xF#4 → s.xv[rs2] = 0xF#4 →
    exec (.gfmul rd rs1 rs2) s = .next { s with
      x := s.x.set rd (gfReduce (clmulHigh s.x[rs1] s.x[rs2]) (clmulLow s.x[rs1] s.x[rs2]))
      xv := s.xv.set rd 0xF#4 }

/-- The bits of the 64 x 64 carry-less product (R120): bit `k` is the xor over `i + j = k` of
`a[i] & b[j]`, bit 127 is 0. -/
def Obligations.ClmulBits : Prop :=
  ∀ (a b : Half) (k : Nat), k < 128 →
    (clmul64 a b).getLsbD k =
      ((List.range (k + 1)).map (fun i => a.getLsbD i && b.getLsbD (k - i))).foldr xor false

/-- `PH || PL` is the full 256-bit carry-less product (R123), in the polynomial reading of R11. -/
def Obligations.WideProductIsThePolynomialProduct : Prop :=
  ∀ a b : Block,
    polyOf (clmulHigh a b) * Polynomial.X ^ 128 + polyOf (clmulLow a b) = polyOf a * polyOf b

/-- R127: `Reduce(PH, PL) = P * x^(-128) mod p` for `P = PH * x^128 + PL`, said without the inverse; a
Block is already a residue of degree at most 127; and the consequences (a) linearity,
(b) `Reduce(PH, 0) = PH`, (c) the value of `Reduce(0, 1)`. -/
def Obligations.ReduceDividesByX128 : Prop :=
  (∀ ph pl : Block,
    fieldPoly ∣ polyOf (gfReduce ph pl) * Polynomial.X ^ 128 -
      (polyOf ph * Polynomial.X ^ 128 + polyOf pl)) ∧
  (∀ b : Block, (polyOf b).degree < 128) ∧
  (∀ ph ph' pl pl' : Block,
    gfReduce (ph ^^^ ph') (pl ^^^ pl') = gfReduce ph pl ^^^ gfReduce ph' pl') ∧
  (∀ ph : Block, gfReduce ph 0#128 = ph) ∧
  gfReduce 0#128 1#128 = 0x92040000000000000000000000000001#128

/-- Laws 1 to 5 of R131: the field multiply is commutative, associative, distributive over xor, has
zero, and has `POLY` for its identity. -/
def Obligations.FieldMultiplyLaws : Prop :=
  (∀ a b : Block, gfmul a b = gfmul b a) ∧
  (∀ a b c : Block, gfmul (gfmul a b) c = gfmul a (gfmul b c)) ∧
  (∀ a b c : Block, gfmul (a ^^^ b) c = gfmul a c ^^^ gfmul b c) ∧
  (∀ a : Block, gfmul a 0#128 = 0#128) ∧
  (∀ a : Block, gfmul a 0xc2000000000000000000000000000001#128 = a)

/-! ## Powers table -/

/-- R151: BLDTBL `n` fills `T[0..n-1]` with the powers of `H`, clears and invalidates `T[n..7]`, and
changes nothing else; `H` is read once, before. -/
def Obligations.BldtblResult : Prop :=
  ∀ (n : Nat) (s : State), 1 ≤ n → n ≤ 8 → s.xv[(23 : RegIdx)] = 0xF#4 →
    ∃ t, exec (.bldtbl n) s = .next t ∧ t = { s with x := t.x, xv := t.xv } ∧
      t.x[(0 : RegIdx)] = s.x[(23 : RegIdx)] ∧
      (∀ k : RegIdx, 1 ≤ k.val → k.val < n → t.x[k] = gfmul t.x[k - 1] s.x[(23 : RegIdx)]) ∧
      (∀ k : RegIdx, k.val < n → t.xv[k] = 0xF#4) ∧
      (∀ k : RegIdx, n ≤ k.val → k.val < 8 → t.x[k] = 0#128 ∧ t.xv[k] = 0#4) ∧
      (∀ k : RegIdx, 8 ≤ k.val → t.x[k] = s.x[k] ∧ t.xv[k] = s.xv[k])

/-- R150: `H^1 = H`, `H^(k+1) = gfmul(H^k, H)`, and the order of the multiplications does not matter:
`H^(a+b) = gfmul(H^a, H^b)` (`hashPower h k` is `H^(k+1)`). -/
def Obligations.PowersMultiply : Prop :=
  ∀ (h : Block), hashPower h 0 = h ∧ (∀ k, hashPower h (k + 1) = gfmul (hashPower h k) h) ∧
    ∀ a b, hashPower h (a + b + 1) = gfmul (hashPower h a) (hashPower h b)

/-! ## POLYVAL accumulators -/

/-- R161: FOLDH with `LEN = 0` changes nothing, whatever is valid; otherwise it leaves the Horner fold
of the buffer's blocks in `ACC` and changes nothing else. -/
def Obligations.FoldhResult : Prop :=
  (∀ s : State, s.len = 0#32 → exec .foldh s = .next s) ∧
  ∀ s : State, s.len ≠ 0#32 → s.xv[(24 : RegIdx)] = 0xF#4 → s.xv[(23 : RegIdx)] = 0xF#4 →
    InputUsable s →
    exec .foldh s = .next { s with
      x := s.x.set 24 ((s.mem.bufferBlocks s.src.toNat s.len.toNat).foldl
        (fun a b => gfmul (a ^^^ b) s.x[(23 : RegIdx)]) s.x[(24 : RegIdx)])
      xv := s.xv.set 24 0xF#4 }

/-- R172: FOLDB `W` with `LEN = 0` changes nothing, whatever is valid; otherwise it leaves in `ACC` the
full groups of `W` blocks, the short group and the padded tail folded in that order with the table, and
changes nothing else. -/
def Obligations.FoldbResult : Prop :=
  (∀ (w : Nat) (s : State), s.len = 0#32 → exec (.foldb w) s = .next s) ∧
  ∀ (w : Nat) (s : State), 1 ≤ w → w ≤ 8 → s.len ≠ 0#32 → s.xv[(24 : RegIdx)] = 0xF#4 →
    (∀ k : RegIdx, k.val < w → s.xv[k] = 0xF#4) → InputUsable s →
    let n := s.len.toNat
    let t : Nat → Block := fun k => s.x[Fin.ofNat 32 k]
    let groups := foldGroups t w (n / (16 * w)) s.x[(24 : RegIdx)]
      (s.mem.fullBlocks s.src.toNat (n / 16))
    exec (.foldb w) s = .next { s with
      x := s.x.set 24 (if n % 16 = 0 then groups
        else gfmul (groups ^^^ s.mem.readBlock (s.src.toNat + 16 * (n / 16)) (n % 16)) (t 0))
      xv := s.xv.set 24 0xF#4 }

/-- R171: a group equals as many Horner steps when the table holds the powers. -/
def Obligations.GroupFoldIsHornerSteps : Prop :=
  ∀ (t : Nat → Block) (s h : Block) (bs : List Block),
    (∀ k, k < bs.length → t k = hashPower h k) →
    groupFold t s bs = bs.foldl (fun a b => gfmul (a ^^^ b) h) s

/-- R176, evaluator equivalence: when `T[k] = H^(k+1)` for `k < W`, FOLDB `W` and FOLDH leave the same
state, for every `W` in 1..8, every buffer and every initial accumulator. -/
def Obligations.BatchedFoldEqualsHornerFold : Prop :=
  ∀ (w : Nat) (s : State), 1 ≤ w → w ≤ 8 → s.xv[(24 : RegIdx)] = 0xF#4 →
    s.xv[(23 : RegIdx)] = 0xF#4 → (∀ k : RegIdx, k.val < w → s.xv[k] = 0xF#4) → InputUsable s →
    TableHolds s s.x[(23 : RegIdx)] w →
    exec (.foldb w) s = exec .foldh s

/-- R162: folding a buffer in two FOLDH commands gives what one gives, when the first part is a
multiple of 16 bytes long. `u` is the state between the two, the host having moved `SRC` and `LEN`. -/
def Obligations.ChunkedHornerFold : Prop :=
  ∀ (s : State) (n1 n2 : Word), n1.toNat % 16 = 0 → s.len.toNat = n1.toNat + n2.toNat →
    s.xv[(24 : RegIdx)] = 0xF#4 → s.xv[(23 : RegIdx)] = 0xF#4 → InputUsable s →
    ∃ u v t, exec .foldh { s with len := n1 } = .next u ∧
      exec .foldh { u with src := s.src + n1, len := n2 } = .next v ∧
      exec .foldh s = .next t ∧ v.x[(24 : RegIdx)] = t.x[(24 : RegIdx)] ∧
      v.err = s.err ∧ t.err = s.err

/-! ## AES rounds -/

/-- R191: the S-box table is the affine map of the inverse in GF(2^8), 0 going to 0. -/
def Obligations.SboxIsAffineOfInverse : Prop :=
  sbox 0#8 = sboxAffine 0#8 ∧ ∀ a b : Byte, gf256Mul a b = 1#8 → sbox a = sboxAffine b

/-- R192: ShiftRows rotates row `r` left by `r` columns. -/
def Obligations.ShiftRowsRotatesRows : Prop :=
  ∀ (s : Block) (r c : Nat), r < 4 → c < 4 →
    byteOf (shiftRows s) (r + 4 * c) = byteOf s (r + 4 * ((c + r) % 4))

/-- R193: MixColumns, the four bytes of each column, with the example. -/
def Obligations.MixColumnsMixesColumns : Prop :=
  (∀ (s : Block) (c : Nat), c < 4 →
    let a0 := byteOf s (4 * c)
    let a1 := byteOf s (4 * c + 1)
    let a2 := byteOf s (4 * c + 2)
    let a3 := byteOf s (4 * c + 3)
    byteOf (mixColumns s) (4 * c) = gf256Mul a0 2 ^^^ gf256Mul a1 3 ^^^ a2 ^^^ a3 ∧
    byteOf (mixColumns s) (4 * c + 1) = a0 ^^^ gf256Mul a1 2 ^^^ gf256Mul a2 3 ^^^ a3 ∧
    byteOf (mixColumns s) (4 * c + 2) = a0 ^^^ a1 ^^^ gf256Mul a2 2 ^^^ gf256Mul a3 3 ∧
    byteOf (mixColumns s) (4 * c + 3) = gf256Mul a0 3 ^^^ a1 ^^^ a2 ^^^ gf256Mul a3 2) ∧
  (∀ a : Byte, gf256Mul a 2 = (a <<< 1) ^^^ (if a.getLsbD 7 then 0x1b#8 else 0#8) ∧
    gf256Mul a 3 = gf256Mul a 2 ^^^ a) ∧
  mixColumns 0xc6c6c6c6010101015c220af2455313db#128 = 0xc6c6c6c6010101019d58dc9fbca14d8e#128

/-- R194, R195: the two rounds byte by byte: SubBytes, ShiftRows, for the full round MixColumns, and the
xor of the round key; SubBytes and ShiftRows commute. -/
def Obligations.RoundsComposeTheirParts : Prop :=
  (∀ s k : Block, encRound s k = mixColumns (shiftRows (subBytes s)) ^^^ k ∧
    encRound s k = mixColumns (subBytes (shiftRows s)) ^^^ k) ∧
  (∀ s k : Block, encLast s k = shiftRows (subBytes s) ^^^ k) ∧
  (∀ (s : Block) (i : Nat), i < 16 → byteOf (subBytes s) i = sbox (byteOf s i))

/-- R197: `EncBlock`: the initial key addition, `NR - 1` rounds, the last round, with the keys
`RK[0..NR]` (registers 8 on) and `NR` from `CFG.KS` (R196). -/
def Obligations.EncBlockRunsTheRounds : Prop :=
  ∀ (m : State) (t : Nat → Block) (s : Block),
    let rk : Nat → Block := fun i => m.x[Fin.ofNat 32 (8 + i)]
    let nr : Nat := if m.ks then 14 else 10
    t 0 = s ^^^ rk 0 → (∀ i, 1 ≤ i → i < nr → t i = encRound (t (i - 1)) (rk i)) →
    m.encrypt s = encLast (t (nr - 1)) (rk nr)

/-- R198, R199: AESENC and AESENCLAST write the round of `x[rs1]` with key `x[rs2]` to `rd`; nothing
else changes. -/
def Obligations.AesRoundResults : Prop :=
  ∀ (rd rs1 rs2 : RegIdx) (s : State), s.xv[rs1] = 0xF#4 → s.xv[rs2] = 0xF#4 →
    exec (.aesenc rd rs1 rs2) s = .next { s with
      x := s.x.set rd (encRound s.x[rs1] s.x[rs2]), xv := s.xv.set rd 0xF#4 } ∧
    exec (.aesenclast rd rs1 rs2) s = .next { s with
      x := s.x.set rd (encLast s.x[rs1] s.x[rs2]), xv := s.xv.set rd 0xF#4 }

/-- R200: AESBLK writes the encryption of `x[rs1]` under `RK[0..NR]` to `rd`, ten rounds when
`CFG.KS = 0` and fourteen when it is 1; nothing else changes. -/
def Obligations.AesblkResult : Prop :=
  ∀ (rd rs1 : RegIdx) (s : State), s.xv[rs1] = 0xF#4 → AllValid s (scheduleRegs s) →
    exec (.aesblk rd rs1) s = .next { s with
      x := s.x.set rd (encBlock (fun k => s.x[Fin.ofNat 32 (8 + k)]) (if s.ks then 14 else 10)
        s.x[rs1])
      xv := s.xv.set rd 0xF#4 }

/-! ## Counter and codec -/

/-- R210: only lane 0 advances, modulo 2^32, and advances add up. -/
def Obligations.CounterAddsInLaneZero : Prop :=
  ∀ (c : Block) (a b : Nat),
    laneOf (ctrAdd c a) 0 = laneOf c 0 + BitVec.ofNat 32 a ∧
    (∀ j, 1 ≤ j → j < 4 → laneOf (ctrAdd c a) j = laneOf c j) ∧
    ctrAdd (ctrAdd c a) b = ctrAdd c (a + b)

/-- R211: CTRINC `k` advances `CTR` by `k` and changes nothing else; `k = 0` leaves `CTR` as it is. -/
def Obligations.CtrincResult : Prop :=
  ∀ (k : Nat) (s : State), k ≤ 511 → s.xv[(25 : RegIdx)] = 0xF#4 →
    exec (.ctrinc k) s = .next { s with
      x := s.x.set 25 (s.x[(25 : RegIdx)].extractLsb' 32 96 ++
        (s.x[(25 : RegIdx)].extractLsb' 0 32 + BitVec.ofNat 32 k))
      xv := s.xv.set 25 0xF#4 } ∧
    (k = 0 → exec (.ctrinc k) s = .next s)

/-- R222: with `LEN = 0` CTRENC and CTRDEC need only `TAG`, touch no memory and not `ACC`, and leave
`TAG | 1 << 127` in `CTR`. -/
def Obligations.CodecOfNothing : Prop :=
  ∀ (i : Instr) (s : State), i = .ctrenc ∨ i = .ctrdec → s.len = 0#32 →
    s.xv[(26 : RegIdx)] = 0xF#4 →
    exec i s = .next { s with
      x := s.x.set 25 (s.x[(26 : RegIdx)] ||| (1#128 <<< 127)), xv := s.xv.set 25 0xF#4 }

/-- R220 (with R213 to R216, R218, R219): CTRENC completes when its registers are valid and its buffers
usable and apart. Output byte `k` is input byte `k` xor keystream byte `k`; no other byte changes; `CTR`
is the initial counter advanced by the number of full blocks; the ciphertext folded is the OUTPUT; no
other register and nothing else changes. -/
def Obligations.CtrencResult : Prop :=
  ∀ s : State, s.mem.wf → CodecReady s → s.len ≠ 0#32 →
    ∃ t, exec .ctrenc s = .next t ∧
      t = { s with x := t.x, xv := t.xv, mem := t.mem } ∧
      (∀ k, k < s.len.toNat →
        t.mem.read (s.dst.toNat + k) = s.mem.read (s.src.toNat + k) ^^^ keystreamByte s k) ∧
      (∀ a, ¬ (s.dst.toNat ≤ a ∧ a < s.dst.toNat + s.len.toNat) → t.mem.read a = s.mem.read a) ∧
      t.x[(25 : RegIdx)] = ctrAdd (s.x[(26 : RegIdx)] ||| (1#128 <<< 127)) (s.len.toNat / 16) ∧
      t.x[(24 : RegIdx)] = codecFold s (s.len.toNat / 96)
        (t.mem.bufferBlocks s.dst.toNat s.len.toNat) ∧
      t.xv[(25 : RegIdx)] = 0xF#4 ∧ t.xv[(24 : RegIdx)] = 0xF#4 ∧
      (∀ r : RegIdx, r ≠ 24 → r ≠ 25 → t.x[r] = s.x[r] ∧ t.xv[r] = s.xv[r])

/-- R221: CTRDEC does the same with the INPUT folded. -/
def Obligations.CtrdecResult : Prop :=
  ∀ s : State, s.mem.wf → CodecReady s → s.len ≠ 0#32 →
    ∃ t, exec .ctrdec s = .next t ∧
      t = { s with x := t.x, xv := t.xv, mem := t.mem } ∧
      (∀ k, k < s.len.toNat →
        t.mem.read (s.dst.toNat + k) = s.mem.read (s.src.toNat + k) ^^^ keystreamByte s k) ∧
      (∀ a, ¬ (s.dst.toNat ≤ a ∧ a < s.dst.toNat + s.len.toNat) → t.mem.read a = s.mem.read a) ∧
      t.x[(25 : RegIdx)] = ctrAdd (s.x[(26 : RegIdx)] ||| (1#128 <<< 127)) (s.len.toNat / 16) ∧
      t.x[(24 : RegIdx)] = codecFold s (s.len.toNat / 96)
        (s.mem.bufferBlocks s.src.toNat s.len.toNat) ∧
      t.xv[(25 : RegIdx)] = 0xF#4 ∧ t.xv[(24 : RegIdx)] = 0xF#4 ∧
      (∀ r : RegIdx, r ≠ 24 → r ≠ 25 → t.x[r] = s.x[r] ∧ t.xv[r] = s.xv[r])

/-- R217, the critical cross-check: when the table entries used hold the powers of `h`, the accumulator
after a codec command is the Horner fold, with `h`, of the ciphertext: the bytes written for CTRENC, the
bytes read for CTRDEC. -/
def Obligations.CodecAccumulatesTheCiphertext : Prop :=
  ∀ (s : State) (h : Block), s.mem.wf → CodecReady s → s.len ≠ 0#32 →
    TableHolds s h (if 96 ≤ s.len.toNat then 6 else 1) →
    (∃ t, exec .ctrenc s = .next t ∧
      t.x[(24 : RegIdx)] = hornerFold s.x[(24 : RegIdx)] h
        (t.mem.bufferBlocks s.dst.toNat s.len.toNat)) ∧
    (∃ t, exec .ctrdec s = .next t ∧
      t.x[(24 : RegIdx)] = hornerFold s.x[(24 : RegIdx)] h
        (s.mem.bufferBlocks s.src.toNat s.len.toNat))

/-- R223, round trip: CTRENC from `(p, c, n)`, then CTRDEC from `(c, p', n)` with the same `TAG`, `RK`
and `CFG` returns the plaintext at `p'`, for every length; and from the same `ACC` both leave the same
`ACC` and the same `CTR`. `t` is the state after encryption; the host then sets `SRC`, `DST` and `ACC`. -/
def Obligations.DecryptionInvertsEncryption : Prop :=
  ∀ (s : State) (p' : Word), s.mem.wf → CodecReady s →
    (p'.toNat + s.len.toNat ≤ 4294967296) →
    (∀ k, k < s.len.toNat → InRegions s.readable (s.dst.toNat + k)) →
    (∀ k, k < s.len.toNat → InRegions s.writable (p'.toNat + k)) →
    ¬ BuffersMeet { s with src := s.dst, dst := p' } →
    ∃ t v, exec .ctrenc s = .next t ∧
      exec .ctrdec { t with
        src := s.dst, dst := p', x := t.x.set 24 s.x[(24 : RegIdx)], xv := t.xv.set 24 s.xv[(24 : RegIdx)] } =
        .next v ∧
      (∀ k, k < s.len.toNat → v.mem.read (p'.toNat + k) = s.mem.read (s.src.toNat + k)) ∧
      v.x[(24 : RegIdx)] = t.x[(24 : RegIdx)] ∧
      v.x[(25 : RegIdx)] = t.x[(25 : RegIdx)]

/-! ## Whole-machine rules -/

/-- R24, R26, R34, R274: the macro commands write no register but those they name: BLDTBL the table,
FOLDH and FOLDB `ACC`, CTRINC `CTR`, CTRENC and CTRDEC `CTR` and `ACC`; so no command writes a round key,
`H`, `TAG`, `V0..V2`, `PL` or `PH` implicitly. No command changes `CFG`, `SRC`, `DST`, `LEN`,
`LASTCMD`, the platform's predicates or what belongs to the host. -/
def Obligations.CommandsWriteOnlyWhatTheyName : Prop :=
  ∀ (i : Instr) (s : State), ∃ t, exec i s = .next t ∧
    t = { s with
      x := t.x, xv := t.xv, mem := t.mem, err := t.err, cause := t.cause, fcmd := t.fcmd } ∧
    ∀ r : RegIdx,
      (match i with
        | .bxor rd _ _ => r ≠ rd
        | .clmul rd _ _ _ => r ≠ rd
        | .clmulw _ _ => r ≠ 30 ∧ r ≠ 31
        | .clmac _ _ => r ≠ 30 ∧ r ≠ 31
        | .gfred rd => r ≠ rd
        | .gfmul rd _ _ => r ≠ rd
        | .bldtbl _ => 8 ≤ r.val
        | .foldh => r ≠ 24
        | .foldb _ => r ≠ 24
        | .aesenc rd _ _ => r ≠ rd
        | .aesenclast rd _ _ => r ≠ rd
        | .aesblk rd _ => r ≠ rd
        | .ctrinc _ => r ≠ 25
        | .ctrenc => r ≠ 24 ∧ r ≠ 25
        | .ctrdec => r ≠ 24 ∧ r ≠ 25) →
      t.x[r] = s.x[r] ∧ t.xv[r] = s.xv[r]

/-- R65, R68: only CTRENC and CTRDEC write memory, and only inside `[DST, DST+LEN)`; FOLDH and FOLDB
never do. -/
def Obligations.OnlyTheCodecWritesMemory : Prop :=
  ∀ (i : Instr) (s : State), ∃ t, exec i s = .next t ∧
    (i ≠ .ctrenc → i ≠ .ctrdec → t.mem = s.mem) ∧
    (s.mem.wf → ∀ a, ¬ (s.dst.toNat ≤ a ∧ a < s.dst.toNat + s.len.toNat) →
      t.mem.read a = s.mem.read a)

/-- R65: "No command reads ... a byte outside `[SRC, SRC+LEN)`": two runs of a command from states that
differ only in memory, and agree on the input buffer, end with the same registers and the same output
bytes. -/
def Obligations.OnlyTheInputBufferIsRead : Prop :=
  ∀ (i : Instr) (s : State) (m : Memory), s.mem.wf → m.wf →
    (∀ k, k < s.len.toNat → m.read (s.src.toNat + k) = s.mem.read (s.src.toNat + k)) →
    ∃ t u, exec i s = .next t ∧ exec i { s with mem := m } = .next u ∧
      t = { u with mem := t.mem } ∧
      (i = .ctrenc ∨ i = .ctrdec → t.err = false →
        ∀ k, k < s.len.toNat → t.mem.read (s.dst.toNat + k) = u.mem.read (s.dst.toNat + k))

/-- R27: lane-valid bits are cleared only by reset and, for `T[n..7]`, by BLDTBL `n`. -/
def Obligations.ValidBitsClearedOnlyByResetAndBldtbl : Prop :=
  ∀ (s t : State) (a : HostAction) (rest : List HostAction) (r : RegIdx) (j : Nat),
    s.pending = a :: rest → step s = .next t →
    s.xv[r].getLsbD j = true → t.xv[r].getLsbD j = false →
    a = .hardReset ∨ (∃ w, a = .hardResetDuring w) ∨
      (∃ v, a = .portWrite 135 v ∧ v.getLsbD 0 = true) ∨
      (∃ w n, a = .portWrite 128 w ∧ decode w = .ok (.bldtbl n) ∧ n ≤ r.val ∧ r.val < 8)
end

