-- ==== Sys2Proof/Laws/Block.lean ====
section
/-! SUPPORT. The bytes and lanes of a Block: assembling, taking apart, xor, truncation. -/

namespace Sys2Proof.Machine

/-- Byte 0 of an assembled Block is the first byte. -/
theorem byteOf_leBlock_zero (b : Byte) (bs : List Byte) : byteOf (leBlock (b :: bs)) 0 = b := by
  ext i hi
  have h : i < 128 := by omega
  simp [byteOf, leBlock, hi, h]

/-- Byte `k+1` of an assembled Block is byte `k` of the rest. -/
theorem byteOf_leBlock_succ (b : Byte) (bs : List Byte) (k : Nat) (hk : k + 1 < 16) :
    byteOf (leBlock (b :: bs)) (k + 1) = byteOf (leBlock bs) k := by
  ext i hi
  have h1 : 8 * (k + 1) + i < 128 := by omega
  have h2 : ¬ 8 * (k + 1) + i < 8 := by omega
  have h3 : 8 * (k + 1) + i - 8 = 8 * k + i := by omega
  have h4 : 8 ≤ 8 * (k + 1) + i := by omega
  simp only [byteOf, leBlock, BitVec.getElem_extractLsb', BitVec.getLsbD_or,
    BitVec.getLsbD_shiftLeft, BitVec.getLsbD_setWidth, h1, h2, h3]
  simp [BitVec.getLsbD_of_ge b (8 * (k + 1) + i) h4]

/-- Byte `k` of an assembled Block is byte `k` of the list, zero past its end (R62, R66). -/
theorem byteOf_leBlock (bs : List Byte) (k : Nat) (hk : k < 16) :
    byteOf (leBlock bs) k = bs.getD k 0#8 := by
  induction bs generalizing k with
  | nil => simp [leBlock, byteOf]
  | cons b bs ih =>
    cases k with
    | zero => simp [byteOf_leBlock_zero]
    | succ k => rw [byteOf_leBlock_succ b bs k hk, ih k (by omega)]; simp

/-- Two Blocks with the same sixteen bytes are equal (R9). -/
theorem block_ext {a b : Block} (h : ∀ k, k < 16 → byteOf a k = byteOf b k) : a = b := by
  ext i hi
  have hk := congrArg (fun v => v.getLsbD (i % 8)) (h (i / 8) (by omega))
  have e : 8 * (i / 8) + i % 8 = i := by omega
  have h8 : i % 8 < 8 := by omega
  simp only [byteOf, BitVec.getLsbD_extractLsb', h8, decide_true, Bool.true_and, e] at hk
  simpa [BitVec.getElem_eq_testBit_toNat, BitVec.testBit_toNat] using hk

/-- A Block given by its bytes has those bytes (R9). -/
theorem byteOf_blockOfBytes (f : Nat → Byte) (k : Nat) (hk : k < 16) :
    byteOf (blockOfBytes f) k = f k := by
  simp [blockOfBytes, byteOf_leBlock _ k hk, List.getD_eq_getElem?_getD, hk]

/-- The bytes of an xor are the xors of the bytes. -/
@[simp] theorem byteOf_xor (a b : Block) (k : Nat) :
    byteOf (a ^^^ b) k = byteOf a k ^^^ byteOf b k := by
  ext i hi
  simp [byteOf]

/-- Keeping `r` bytes: the others read zero (R218). -/
theorem byteOf_keepBytes (v : Block) (r k : Nat) (hk : k < 16) :
    byteOf (keepBytes v r) k = if k < r then byteOf v k else 0#8 := by
  by_cases h : k < r <;> simp [keepBytes, byteOf_leBlock _ k hk, List.getD_eq_getElem?_getD, h]

/-- The lane that was written reads the value written (R41). -/
theorem laneOf_withLane_same (b : Block) (j : Fin 4) (v : Word) :
    laneOf (withLane b j v) j.val = v := by
  have hj := j.isLt
  ext i hi
  have h1 : 32 * j.val + i < 128 := by omega
  have h2 : 32 * j.val ≤ 32 * j.val + i := by omega
  have h3 : 32 * j.val + i - 32 * j.val = i := by omega
  simp [laneOf, withLane, h1, h3, hi]
  have : (4294967295#128).getLsbD i = true := by
    interval_cases i <;> rfl
  simp [this]

/-- The other lanes read as before (R41). -/
theorem laneOf_withLane_ne (b : Block) (j k : Fin 4) (v : Word) (h : j ≠ k) :
    laneOf (withLane b j v) k.val = laneOf b k.val := by
  have hj := j.isLt
  have hk := k.isLt
  have hne : j.val ≠ k.val := fun e => h (Fin.ext e)
  ext i hi
  have h1 : 32 * k.val + i < 128 := by omega
  simp only [laneOf, withLane, BitVec.getElem_extractLsb', BitVec.getLsbD_or, BitVec.getLsbD_and,
    BitVec.getLsbD_not, BitVec.getLsbD_shiftLeft, h1, BitVec.getLsbD_setWidth, decide_true,
    Bool.true_and]
  by_cases hlt : 32 * k.val + i < 32 * j.val
  · simp [hlt]
  · have h2 : 32 ≤ 32 * k.val + i - 32 * j.val := by omega
    simp [hlt, BitVec.getLsbD_of_ge _ _ h2]

end Sys2Proof.Machine
end

