-- ==== Sys2Proof/Laws/Memory.lean ====
section
/-! SUPPORT. The laws of buffer memory: a read after a write, every other byte, the canonical form. -/

namespace Sys2Proof.Machine

/-- Addresses strictly rising. -/
abbrev Memory.sorted (m : Memory) : Prop := m.Pairwise (fun c d => c.1 < d.1)

/-- An address below every listed one is not listed. -/
theorem Memory.read_of_lt (m : Memory) (a : Nat) (h : ∀ c ∈ m, a < c.1) :
    m.read a = Memory.unlisted := by
  induction m with
  | nil => rfl
  | cons c m ih =>
    obtain ⟨b, v⟩ := c
    have hb : a < b := h (b, v) (by simp)
    have hne : b ≠ a := by omega
    simp only [Memory.read, hne, if_false]
    exact ih (fun c hc => h c (by simp [hc]))

theorem Memory.read_consCell_same (a : Nat) (v : Byte) (m : Memory) (h : ∀ c ∈ m, a < c.1) :
    Memory.read (Memory.consCell a v m) a = v := by
  by_cases hv : v = Memory.unlisted
  · simp [Memory.consCell, hv, Memory.read_of_lt m a h]
  · simp [Memory.consCell, hv, Memory.read]

theorem Memory.read_consCell_ne (a x : Nat) (v : Byte) (m : Memory) (h : x ≠ a) :
    Memory.read (Memory.consCell a v m) x = m.read x := by
  by_cases hv : v = Memory.unlisted
  · simp [Memory.consCell, hv]
  · simp [Memory.consCell, hv, Memory.read, Ne.symm h]

/-- A byte reads back what was written to it, every other byte what it held (R63). -/
theorem Memory.read_write (m : Memory) (a x : Nat) (v : Byte) (hm : m.sorted) :
    (m.write a v).read x = if x = a then v else m.read x := by
  induction m with
  | nil =>
    by_cases hx : x = a
    · subst hx; simp [Memory.write, Memory.read_consCell_same]
    · simp [Memory.write, Memory.read_consCell_ne _ _ _ _ hx, hx]
  | cons c m ih =>
    obtain ⟨b, w⟩ := c
    have hs : Memory.sorted m := hm.of_cons
    have hlt : ∀ d ∈ m, b < d.1 := fun d hd => List.rel_of_pairwise_cons hm hd
    by_cases h1 : a < b
    · have hall : ∀ d ∈ (b, w) :: m, a < d.1 := by
        intro d hd
        rcases List.mem_cons.mp hd with rfl | hd
        · exact h1
        · exact Nat.lt_trans h1 (hlt d hd)
      by_cases hx : x = a
      · subst hx; simp [Memory.write, h1, Memory.read_consCell_same _ _ _ hall]
      · simp [Memory.write, h1, Memory.read_consCell_ne _ _ _ _ hx, hx]
    · by_cases h2 : a = b
      · subst h2
        by_cases hx : x = a
        · subst hx; simp [Memory.write, Memory.read_consCell_same _ _ _ hlt]
        · simp [Memory.write, Memory.read_consCell_ne _ _ _ _ hx, hx, Memory.read, Ne.symm hx]
      · by_cases hx : b = x
        · subst hx; simp [Memory.write, h1, h2, Memory.read, Ne.symm h2]
        · simp [Memory.write, h1, h2, Memory.read, hx, ih hs]

/-- What can stand in memory after a write: an old cell or the new one. -/
theorem Memory.mem_write (m : Memory) (a : Nat) (v : Byte) (c : Host.Cell)
    (hc : c ∈ m.write a v) : c ∈ m ∨ (c = (a, v) ∧ v ≠ Memory.unlisted) := by
  have hcons : ∀ m : Memory, c ∈ Memory.consCell a v m → c ∈ m ∨ (c = (a, v) ∧ v ≠ Memory.unlisted) := by
    intro m h
    by_cases hv : v = Memory.unlisted
    · left; simpa [Memory.consCell, hv] using h
    · rcases List.mem_cons.mp (by simpa [Memory.consCell, hv] using h) with h | h
      · exact .inr ⟨h, hv⟩
      · exact .inl h
  induction m with
  | nil => exact hcons [] (by simpa [Memory.write] using hc)
  | cons d m ih =>
    obtain ⟨b, w⟩ := d
    by_cases h1 : a < b
    · exact hcons _ (by simpa [Memory.write, h1] using hc)
    · by_cases h2 : a = b
      · rcases hcons m (by simpa [Memory.write, h1, h2] using hc) with h | h
        · exact .inl (by simp [h])
        · exact .inr h
      · rcases List.mem_cons.mp (by simpa [Memory.write, h1, h2] using hc) with h | h
        · exact .inl (by simp [h])
        · rcases ih h with h | h
          · exact .inl (by simp [h])
          · exact .inr h

/-- A write keeps the addresses rising. -/
theorem Memory.sorted_write (m : Memory) (a : Nat) (v : Byte) (hm : m.sorted) :
    (m.write a v).sorted := by
  have hcons : ∀ m : Memory, m.sorted → (∀ d ∈ m, a < d.1) → (Memory.consCell a v m).sorted := by
    intro m hm hlt
    by_cases hv : v = Memory.unlisted
    · simpa [Memory.consCell, hv] using hm
    · simp only [Memory.consCell, hv, if_false]
      exact List.pairwise_cons.mpr ⟨hlt, hm⟩
  induction m with
  | nil => exact hcons [] hm (by simp)
  | cons d m ih =>
    obtain ⟨b, w⟩ := d
    have hs : Memory.sorted m := hm.of_cons
    have hlt : ∀ d ∈ m, b < d.1 := fun d hd => List.rel_of_pairwise_cons hm hd
    by_cases h1 : a < b
    · simp only [Memory.write, h1, if_true]
      refine hcons _ hm (fun d hd => ?_)
      rcases List.mem_cons.mp hd with rfl | hd
      · exact h1
      · exact Nat.lt_trans h1 (hlt d hd)
    · by_cases h2 : a = b
      · subst h2
        simpa [Memory.write] using hcons m hs hlt
      · simp only [Memory.write, h1, h2, if_false]
        refine List.pairwise_cons.mpr ⟨fun d hd => ?_, ih hs⟩
        rcases Memory.mem_write m a v d hd with h | ⟨rfl, -⟩
        · exact hlt d h
        · show b < a
          omega

/-- A write inside the address space keeps the canonical form. -/
theorem Memory.wf_write (m : Memory) (a : Nat) (v : Byte) (hm : m.wf) (ha : a < Config.addrSpace) :
    (m.write a v).wf := by
  refine ⟨Memory.sorted_write m a v hm.1, fun c hc => ?_⟩
  rcases Memory.mem_write m a v c hc with h | ⟨rfl, hv⟩
  · exact hm.2 c h
  · exact ⟨ha, hv⟩

theorem Memory.sorted_writeBytes (m : Memory) (a : Nat) (bs : List Byte) (hm : m.sorted) :
    (m.writeBytes a bs).sorted := by
  induction bs generalizing m a with
  | nil => exact hm
  | cons b bs ih => exact ih _ _ (Memory.sorted_write m a b hm)

/-- A run of bytes written inside the address space keeps the canonical form. -/
theorem Memory.wf_writeBytes (m : Memory) (a : Nat) (bs : List Byte) (hm : m.wf)
    (ha : a + bs.length ≤ Config.addrSpace) : (m.writeBytes a bs).wf := by
  induction bs generalizing m a with
  | nil => exact hm
  | cons b bs ih =>
    simp only [List.length_cons] at ha
    exact ih _ _ (Memory.wf_write m a b hm (by omega)) (by omega)

/-- Reading after a run of bytes was written: the run inside it, the old bytes outside (R63). -/
theorem Memory.read_writeBytes (m : Memory) (a x : Nat) (bs : List Byte) (hm : m.sorted) :
    (m.writeBytes a bs).read x =
      if a ≤ x ∧ x < a + bs.length then bs.getD (x - a) 0#8 else m.read x := by
  induction bs generalizing m a with
  | nil => simp [Memory.writeBytes]
  | cons b bs ih =>
    rw [Memory.writeBytes, ih _ _ (Memory.sorted_write m a b hm), Memory.read_write _ _ _ _ hm]
    simp only [List.length_cons]
    rcases Nat.lt_trichotomy x a with h | h | h
    · have h1 : ¬ (a + 1 ≤ x ∧ x < a + 1 + bs.length) := by omega
      have h2 : ¬ (a ≤ x ∧ x < a + (bs.length + 1)) := by omega
      have h3 : x ≠ a := by omega
      rw [if_neg h1, if_neg h2, if_neg h3]
    · subst h
      have h1 : ¬ (x + 1 ≤ x ∧ x < x + 1 + bs.length) := by omega
      have h2 : x ≤ x ∧ x < x + (bs.length + 1) := by omega
      rw [if_neg h1, if_pos h2]; simp
    · have h3 : x ≠ a := by omega
      have e : x - a = (x - (a + 1)) + 1 := by omega
      by_cases h4 : x < a + 1 + bs.length
      · have h1 : a + 1 ≤ x ∧ x < a + 1 + bs.length := by omega
        have h2 : a ≤ x ∧ x < a + (bs.length + 1) := by omega
        rw [if_pos h1, if_pos h2, e]; simp
      · have h1 : ¬ (a + 1 ≤ x ∧ x < a + 1 + bs.length) := by omega
        have h2 : ¬ (a ≤ x ∧ x < a + (bs.length + 1)) := by omega
        rw [if_neg h1, if_neg h2, if_neg h3]

theorem Memory.sorted_writeBlock (m : Memory) (a n : Nat) (v : Block) (hm : m.sorted) :
    (m.writeBlock a n v).sorted := Memory.sorted_writeBytes m a _ hm

theorem Memory.wf_writeBlock (m : Memory) (a n : Nat) (v : Block) (hm : m.wf)
    (ha : a + n ≤ Config.addrSpace) : (m.writeBlock a n v).wf :=
  Memory.wf_writeBytes m a _ hm (by simpa using ha)

/-- Reading after `MemWrite` (R63). -/
theorem Memory.read_writeBlock (m : Memory) (a n x : Nat) (v : Block) (hm : m.sorted) :
    (m.writeBlock a n v).read x =
      if a ≤ x ∧ x < a + n then byteOf v (x - a) else m.read x := by
  rw [Memory.writeBlock, Memory.read_writeBytes _ _ _ _ hm]
  by_cases h : a ≤ x ∧ x < a + n
  · have h1 : x - a < n := by omega
    simp [h, List.getD_eq_getElem?_getD, h1]
  · simp [h]

theorem Memory.sorted_writeBlocks (m : Memory) (a : Nat) (bs : List Block) (hm : m.sorted) :
    (m.writeBlocks a bs).sorted := by
  induction bs generalizing m a with
  | nil => exact hm
  | cons b bs ih => exact ih _ _ (Memory.sorted_writeBlock m a 16 b hm)

theorem Memory.wf_writeBlocks (m : Memory) (a : Nat) (bs : List Block) (hm : m.wf)
    (ha : a + 16 * bs.length ≤ Config.addrSpace) : (m.writeBlocks a bs).wf := by
  induction bs generalizing m a with
  | nil => exact hm
  | cons b bs ih =>
    simp only [List.length_cons] at ha
    exact ih _ _ (Memory.wf_writeBlock m a 16 b hm (by omega)) (by omega)

/-- Reading after a run of Blocks was written (R63). -/
theorem Memory.read_writeBlocks (m : Memory) (a x : Nat) (bs : List Block) (hm : m.sorted) :
    (m.writeBlocks a bs).read x =
      if a ≤ x ∧ x < a + 16 * bs.length then byteOf (bs.getD ((x - a) / 16) 0#128) ((x - a) % 16)
      else m.read x := by
  induction bs generalizing m a with
  | nil => simp [Memory.writeBlocks]
  | cons b bs ih =>
    rw [Memory.writeBlocks, ih _ _ (Memory.sorted_writeBlock m a 16 b hm),
      Memory.read_writeBlock _ _ _ _ _ hm]
    simp only [List.length_cons]
    by_cases hlo : a ≤ x ∧ x < a + 16
    · have h1 : ¬ (a + 16 ≤ x ∧ x < a + 16 + 16 * bs.length) := by omega
      have h2 : a ≤ x ∧ x < a + 16 * (bs.length + 1) := by omega
      have e : (x - a) / 16 = 0 := by omega
      have e2 : (x - a) % 16 = x - a := by omega
      rw [if_neg h1, if_pos hlo, if_pos h2, e, e2]; simp
    · by_cases h1 : a + 16 ≤ x ∧ x < a + 16 + 16 * bs.length
      · have h2 : a ≤ x ∧ x < a + 16 * (bs.length + 1) := by omega
        have e : (x - a) / 16 = (x - (a + 16)) / 16 + 1 := by omega
        have e2 : (x - a) % 16 = (x - (a + 16)) % 16 := by omega
        rw [if_pos h1, if_pos h2, e, e2]; simp
      · have h2 : ¬ (a ≤ x ∧ x < a + 16 * (bs.length + 1)) := by omega
        rw [if_neg h1, if_neg hlo, if_neg h2]

/-- Byte `k` of a Block read from memory, zero past the `n` bytes read (R62, R66). -/
theorem Memory.byteOf_readBlock (m : Memory) (a n k : Nat) (hk : k < 16) :
    byteOf (m.readBlock a n) k = if k < n then m.read (a + k) else 0#8 := by
  by_cases h : k < n <;>
    simp [Memory.readBlock, Memory.bytes, byteOf_leBlock _ k hk, List.getD_eq_getElem?_getD, h]

/-- Two memories that agree on the bytes read give the same Block. -/
theorem Memory.readBlock_congr {m m' : Memory} {a n : Nat}
    (h : ∀ k, k < n → m.read (a + k) = m'.read (a + k)) : m.readBlock a n = m'.readBlock a n := by
  refine congrArg leBlock (List.map_congr_left fun k hk => h k (List.mem_range.mp hk))

/-- A buffer has one block for every sixteen bytes begun (R65, R160). -/
theorem Memory.length_bufferBlocks (m : Memory) (a n : Nat) :
    (m.bufferBlocks a n).length = (n + 15) / 16 := by
  by_cases h : n % 16 = 0
  · simp [Memory.bufferBlocks, Memory.fullBlocks, h]; omega
  · simp [Memory.bufferBlocks, Memory.fullBlocks, h]; omega

/-- Covering a range is holding each of its addresses (R61 (c)). -/
theorem regionsCover_iff (rs : List Region) (a n : Nat) :
    regionsCover rs a n = true ↔ ∀ k, k < n → regionsHold rs (a + k) = true := by
  simp [regionsCover]

end Sys2Proof.Machine
end

