-- ==== Sys2Proof/Laws/State.lean ====
section
/-! SUPPORT. What each update of the state does to each field, one lemma per field, true by `rfl`;
and reading a register back after it. -/

namespace Sys2Proof.Machine

variable (s : State)

section setReg

variable (i : RegIdx) (v : Block)

@[simp] theorem setReg_x : (s.setReg i v).x = s.x.set i v := rfl
@[simp] theorem setReg_xv : (s.setReg i v).xv = s.xv.set i 0xF#4 := rfl
@[simp] theorem setReg_ks : (s.setReg i v).ks = s.ks := rfl
@[simp] theorem setReg_src : (s.setReg i v).src = s.src := rfl
@[simp] theorem setReg_dst : (s.setReg i v).dst = s.dst := rfl
@[simp] theorem setReg_len : (s.setReg i v).len = s.len := rfl
@[simp] theorem setReg_err : (s.setReg i v).err = s.err := rfl
@[simp] theorem setReg_cause : (s.setReg i v).cause = s.cause := rfl
@[simp] theorem setReg_fcmd : (s.setReg i v).fcmd = s.fcmd := rfl
@[simp] theorem setReg_lastcmd : (s.setReg i v).lastcmd = s.lastcmd := rfl
@[simp] theorem setReg_mem : (s.setReg i v).mem = s.mem := rfl
@[simp] theorem setReg_readable : (s.setReg i v).readable = s.readable := rfl
@[simp] theorem setReg_writable : (s.setReg i v).writable = s.writable := rfl
@[simp] theorem setReg_pending : (s.setReg i v).pending = s.pending := rfl
@[simp] theorem setReg_cp : (s.setReg i v).cp = s.cp := rfl
@[simp] theorem setReg_seen : (s.setReg i v).seen = s.seen := rfl
@[simp] theorem setReg_draws : (s.setReg i v).draws = s.draws := rfl

end setReg

section invalidate

variable (i : RegIdx)

@[simp] theorem invalidate_x : (s.invalidate i).x = s.x.set i 0#128 := rfl
@[simp] theorem invalidate_xv : (s.invalidate i).xv = s.xv.set i 0#4 := rfl
@[simp] theorem invalidate_ks : (s.invalidate i).ks = s.ks := rfl
@[simp] theorem invalidate_src : (s.invalidate i).src = s.src := rfl
@[simp] theorem invalidate_dst : (s.invalidate i).dst = s.dst := rfl
@[simp] theorem invalidate_len : (s.invalidate i).len = s.len := rfl
@[simp] theorem invalidate_err : (s.invalidate i).err = s.err := rfl
@[simp] theorem invalidate_cause : (s.invalidate i).cause = s.cause := rfl
@[simp] theorem invalidate_fcmd : (s.invalidate i).fcmd = s.fcmd := rfl
@[simp] theorem invalidate_lastcmd : (s.invalidate i).lastcmd = s.lastcmd := rfl
@[simp] theorem invalidate_mem : (s.invalidate i).mem = s.mem := rfl
@[simp] theorem invalidate_readable : (s.invalidate i).readable = s.readable := rfl
@[simp] theorem invalidate_writable : (s.invalidate i).writable = s.writable := rfl
@[simp] theorem invalidate_pending : (s.invalidate i).pending = s.pending := rfl
@[simp] theorem invalidate_cp : (s.invalidate i).cp = s.cp := rfl
@[simp] theorem invalidate_seen : (s.invalidate i).seen = s.seen := rfl
@[simp] theorem invalidate_draws : (s.invalidate i).draws = s.draws := rfl

end invalidate

section setLane

variable (i : RegIdx) (j : Fin 4) (v : Word)

@[simp] theorem setLane_x : (s.setLane i j v).x = s.x.set i (withLane (s.reg i) j v) := rfl
@[simp] theorem setLane_xv : (s.setLane i j v).xv = s.xv.set i (s.xv[i] ||| (1#4 <<< j.val)) := rfl
@[simp] theorem setLane_ks : (s.setLane i j v).ks = s.ks := rfl
@[simp] theorem setLane_src : (s.setLane i j v).src = s.src := rfl
@[simp] theorem setLane_dst : (s.setLane i j v).dst = s.dst := rfl
@[simp] theorem setLane_len : (s.setLane i j v).len = s.len := rfl
@[simp] theorem setLane_err : (s.setLane i j v).err = s.err := rfl
@[simp] theorem setLane_cause : (s.setLane i j v).cause = s.cause := rfl
@[simp] theorem setLane_fcmd : (s.setLane i j v).fcmd = s.fcmd := rfl
@[simp] theorem setLane_lastcmd : (s.setLane i j v).lastcmd = s.lastcmd := rfl
@[simp] theorem setLane_mem : (s.setLane i j v).mem = s.mem := rfl
@[simp] theorem setLane_readable : (s.setLane i j v).readable = s.readable := rfl
@[simp] theorem setLane_writable : (s.setLane i j v).writable = s.writable := rfl
@[simp] theorem setLane_pending : (s.setLane i j v).pending = s.pending := rfl
@[simp] theorem setLane_cp : (s.setLane i j v).cp = s.cp := rfl
@[simp] theorem setLane_seen : (s.setLane i j v).seen = s.seen := rfl
@[simp] theorem setLane_draws : (s.setLane i j v).draws = s.draws := rfl

end setLane

section raiseFault

variable (c : Cause) (w : Word)

@[simp] theorem raiseFault_x : (raiseFault c w s).x = s.x := rfl
@[simp] theorem raiseFault_xv : (raiseFault c w s).xv = s.xv := rfl
@[simp] theorem raiseFault_ks : (raiseFault c w s).ks = s.ks := rfl
@[simp] theorem raiseFault_src : (raiseFault c w s).src = s.src := rfl
@[simp] theorem raiseFault_dst : (raiseFault c w s).dst = s.dst := rfl
@[simp] theorem raiseFault_len : (raiseFault c w s).len = s.len := rfl
@[simp] theorem raiseFault_err : (raiseFault c w s).err = true := rfl
@[simp] theorem raiseFault_cause : (raiseFault c w s).cause = c := rfl
@[simp] theorem raiseFault_fcmd : (raiseFault c w s).fcmd = w := rfl
@[simp] theorem raiseFault_lastcmd : (raiseFault c w s).lastcmd = s.lastcmd := rfl
@[simp] theorem raiseFault_mem : (raiseFault c w s).mem = s.mem := rfl
@[simp] theorem raiseFault_readable : (raiseFault c w s).readable = s.readable := rfl
@[simp] theorem raiseFault_writable : (raiseFault c w s).writable = s.writable := rfl
@[simp] theorem raiseFault_pending : (raiseFault c w s).pending = s.pending := rfl
@[simp] theorem raiseFault_cp : (raiseFault c w s).cp = s.cp := rfl
@[simp] theorem raiseFault_seen : (raiseFault c w s).seen = s.seen := rfl
@[simp] theorem raiseFault_draws : (raiseFault c w s).draws = s.draws := rfl

end raiseFault

section resetCore

@[simp] theorem resetCore_x : (resetCore s).x = Vector.replicate 32 0#128 := rfl
@[simp] theorem resetCore_xv : (resetCore s).xv = Vector.replicate 32 0#4 := rfl
@[simp] theorem resetCore_ks : (resetCore s).ks = false := rfl
@[simp] theorem resetCore_src : (resetCore s).src = 0#32 := rfl
@[simp] theorem resetCore_dst : (resetCore s).dst = 0#32 := rfl
@[simp] theorem resetCore_len : (resetCore s).len = 0#32 := rfl
@[simp] theorem resetCore_err : (resetCore s).err = false := rfl
@[simp] theorem resetCore_cause : (resetCore s).cause = .noFault := rfl
@[simp] theorem resetCore_fcmd : (resetCore s).fcmd = 0#32 := rfl
@[simp] theorem resetCore_lastcmd : (resetCore s).lastcmd = 0#32 := rfl
@[simp] theorem resetCore_mem : (resetCore s).mem = s.mem := rfl
@[simp] theorem resetCore_readable : (resetCore s).readable = s.readable := rfl
@[simp] theorem resetCore_writable : (resetCore s).writable = s.writable := rfl
@[simp] theorem resetCore_pending : (resetCore s).pending = s.pending := rfl
@[simp] theorem resetCore_cp : (resetCore s).cp = s.cp := rfl
@[simp] theorem resetCore_seen : (resetCore s).seen = s.seen := rfl
@[simp] theorem resetCore_draws : (resetCore s).draws = s.draws := rfl

end resetCore

/-- Reading any register after a command wrote one (R10). -/
@[simp] theorem reg_setReg (i j : RegIdx) (v : Block) :
    (s.setReg i v).reg j = if i = j then v else s.reg j := by
  simp [State.reg, Vector.getElem_set, Fin.ext_iff]

/-- The valid bits of any register after a command wrote one (R27). -/
theorem xv_setReg (i j : RegIdx) (v : Block) :
    (s.setReg i v).xv[j] = if i = j then 0xF#4 else s.xv[j] := by
  simp [Vector.getElem_set, Fin.ext_iff]

/-- A register is valid after a write of it; the others keep their validity (R27). -/
@[simp] theorem valid_setReg (i j : RegIdx) (v : Block) :
    (s.setReg i v).valid j = (decide (i = j) || s.valid j) := by
  simp only [State.valid, xv_setReg]
  by_cases h : i = j <;> simp [h]

/-- Reading any register after one was invalidated (R151). -/
@[simp] theorem reg_invalidate (i j : RegIdx) :
    (s.invalidate i).reg j = if i = j then 0#128 else s.reg j := by
  simp [State.reg, Vector.getElem_set, Fin.ext_iff]

/-- The valid bits of any register after one was invalidated (R151). -/
theorem xv_invalidate (i j : RegIdx) :
    (s.invalidate i).xv[j] = if i = j then 0#4 else s.xv[j] := by
  simp [Vector.getElem_set, Fin.ext_iff]

/-- Reading any register after the host wrote a lane (R41). -/
@[simp] theorem reg_setLane (i k : RegIdx) (j : Fin 4) (v : Word) :
    (s.setLane i j v).reg k = if i = k then withLane (s.reg i) j v else s.reg k := by
  simp [State.reg, Vector.getElem_set, Fin.ext_iff]

/-- A fault changes no register (R242). -/
@[simp] theorem reg_raiseFault (c : Cause) (w : Word) (j : RegIdx) :
    (raiseFault c w s).reg j = s.reg j := rfl

/-- After reset every register reads zero (R46). -/
@[simp] theorem reg_resetCore (j : RegIdx) : (resetCore s).reg j = 0#128 := by
  simp [State.reg]

/-- After reset no register is valid (R46). -/
@[simp] theorem valid_resetCore (j : RegIdx) : (resetCore s).valid j = false := by
  simp [State.valid]

end Sys2Proof.Machine
end

