-- ==== Sys2Proof/Laws/Checks.lean ====
section
/-! SUPPORT. The checks before a command and the frame every command runs in: what `checked` and
`firstFailure` can answer, said once; the terms of `Safety` as the checks compute them. -/

namespace Sys2Proof.Machine

/-- All four valid bits set, as a proposition (R10). -/
theorem valid_iff (s : State) (r : RegIdx) : s.valid r = true ↔ s.xv[r] = 0xF#4 := by
  simp [State.valid]

/-- The validity test of a set of registers (R244 (b)). -/
theorem all_valid_iff (s : State) (rs : List RegIdx) : rs.all s.valid = true ↔ AllValid s rs := by
  simp [AllValid, valid_iff]

@[simp] theorem allValid_nil (s : State) : AllValid s [] := by simp [AllValid]

@[simp] theorem allValid_cons (s : State) (r : RegIdx) (rs : List RegIdx) :
    AllValid s (r :: rs) ↔ s.xv[r] = 0xF#4 ∧ AllValid s rs := by simp [AllValid]

/-- Validity reads the valid bits only. -/
theorem allValid_congr {s t : State} (h : s.xv = t.xv) (rs : List RegIdx) :
    AllValid s rs ↔ AllValid t rs := by simp [AllValid, h]

theorem regionsHold_iff (rs : List Region) (a : Nat) : regionsHold rs a = true ↔ InRegions rs a := by
  simp [regionsHold, InRegions]

/-- The platform test of a range (R61 (c)). -/
theorem regionsCover_iff_inRegions (rs : List Region) (a n : Nat) :
    regionsCover rs a n = true ↔ ∀ k, k < n → InRegions rs (a + k) := by
  simp [regionsCover_iff, regionsHold_iff]

/-- The overlap test of two ranges is having an address in common (R70). -/
theorem buffersMeet_iff (s : State) :
    BuffersMeet s ↔ 0 < s.len.toNat ∧ s.src.toNat < s.dst.toNat + s.len.toNat ∧
      s.dst.toNat < s.src.toNat + s.len.toNat := by
  constructor
  · rintro ⟨a, h1, h2⟩; omega
  · intro h
    exact ⟨max s.src.toNat s.dst.toNat, by omega, by omega⟩

theorem buffersOverlap_iff (i : Instr) (s : State) :
    buffersOverlap i s = true ↔ writesOutput i = true ∧ BuffersMeet s := by
  simp [buffersOverlap, buffersMeet_iff, and_assoc]

/-- A command passes its checks exactly if its registers are valid and its buffers pass (R244). -/
theorem firstFailure_eq_noFault_iff (i : Instr) (s : State) :
    firstFailure i s = .noFault ↔
      (AllValid s (validitySet s i) ∧ rangeOk i s = true ∧ buffersOverlap i s = false ∧
        platformOk i s = true) := by
  rw [← all_valid_iff]
  unfold firstFailure
  cases (validitySet s i).all s.valid <;> cases rangeOk i s <;> cases buffersOverlap i s <;>
    cases platformOk i s <;> simp

/-- `illegal` is never the failure of a decoded command (R244, R245). -/
theorem firstFailure_ne_illegal (i : Instr) (s : State) : firstFailure i s ≠ .illegal := by
  unfold firstFailure
  cases (validitySet s i).all s.valid <;> cases rangeOk i s <;> cases buffersOverlap i s <;>
    cases platformOk i s <;> simp

theorem checked_of_noFault {i : Instr} {f : State → State} {s : State}
    (h : firstFailure i s = .noFault) : checked i f s = .next (f s) := by
  simp [checked, h]

theorem checked_of_fault {i : Instr} {f : State → State} {s : State}
    (h : firstFailure i s ≠ .noFault) :
    checked i f s = .next (raiseFault (firstFailure i s) (encode i) s) := by
  unfold checked
  cases hc : firstFailure i s <;> simp_all

/-- What a command can answer: its effect, the checks passed, or its fault (R241, R242). -/
theorem checked_cases {i : Instr} {f : State → State} {s t : State}
    (h : checked i f s = .next t) :
    (firstFailure i s = .noFault ∧ t = f s) ∨
      (firstFailure i s ≠ .noFault ∧ t = raiseFault (firstFailure i s) (encode i) s) := by
  by_cases hc : firstFailure i s = .noFault
  · rw [checked_of_noFault hc] at h
    exact .inl ⟨hc, by simpa using h.symm⟩
  · rw [checked_of_fault hc] at h
    exact .inr ⟨hc, by simpa using h.symm⟩

/-- Commands without buffers: only the registers are checked (R251). -/
theorem firstFailure_eq_noFault_of_regs {i : Instr} {s : State} (hr : readsInput i = false)
    (hw : writesOutput i = false) (hv : AllValid s (validitySet s i)) :
    firstFailure i s = .noFault :=
  (firstFailure_eq_noFault_iff i s).mpr
    ⟨hv, by simp [rangeOk, hr, hw], by simp [buffersOverlap, hw], by simp [platformOk, hr, hw]⟩

/-- FOLDH and FOLDB: the registers and the input buffer are checked (R251). -/
theorem firstFailure_eq_noFault_of_input {i : Instr} {s : State} (hr : readsInput i = true)
    (hw : writesOutput i = false) (hv : AllValid s (validitySet s i)) (hi : InputUsable s) :
    firstFailure i s = .noFault :=
  (firstFailure_eq_noFault_iff i s).mpr
    ⟨hv, by simpa [rangeOk, hr, hw, Config.addrSpace] using hi.1, by simp [buffersOverlap, hw],
      by simpa [platformOk, hr, hw, regionsCover_iff_inRegions] using hi.2⟩

theorem roundKeySet_eq (s : State) : roundKeySet s = scheduleRegs s := by
  unfold roundKeySet scheduleRegs State.rounds
  cases s.ks <;> rfl

/-- The validity set of the codec is the table of R212. -/
theorem codecSet_valid_iff (s : State) :
    AllValid s (codecSet s) ↔ CodecRegistersValid s := by
  have e6 : tableSet 6 = [0, 1, 2, 3, 4, 5] := rfl
  have e0 : Reg.t 0 = 0 := rfl
  unfold codecSet CodecRegistersValid
  rw [roundKeySet_eq, e6, e0]
  by_cases h1 : 1 ≤ s.len.toNat <;> by_cases h2 : 96 ≤ s.len.toNat <;>
    by_cases h3 : s.len.toNat % 96 ≠ 0 <;>
    simp [h1, h2, h3, Reg.tag, Reg.acc, AllValid, or_imp, forall_and, and_assoc]

/-- The codec commands: registers, both buffers, no overlap (R212, R251). -/
theorem firstFailure_codec_iff {i : Instr} {s : State} (h : i = .ctrenc ∨ i = .ctrdec) :
    firstFailure i s = .noFault ↔ CodecReady s := by
  have hr : readsInput i = true := by rcases h with rfl | rfl <;> rfl
  have hw : writesOutput i = true := by rcases h with rfl | rfl <;> rfl
  have hs : validitySet s i = codecSet s := by rcases h with rfl | rfl <;> rfl
  have ho : buffersOverlap i s = false ↔ ¬ BuffersMeet s := by
    rw [← Bool.not_eq_true, buffersOverlap_iff]; simp [hw]
  rw [firstFailure_eq_noFault_iff, hs, codecSet_valid_iff, ho]
  simp only [rangeOk, platformOk, hr, hw, Bool.not_true, Bool.false_or, Bool.and_eq_true,
    decide_eq_true_eq, regionsCover_iff_inRegions, CodecReady, InputUsable, OutputUsable,
    Config.addrSpace]
  tauto

end Sys2Proof.Machine
end

