-- ==== Sys2Proof/Laws/Exec.lean ====
section
/-! SUPPORT. One inversion lemma for `exec` and one for the step: what each can answer, said once. -/

namespace Sys2Proof.Machine

/-- The effect of a command whose checks pass, command by command. -/
def effect : Instr → State → State
  | .bxor rd rs1 rs2, s => s.setReg rd (s.reg rs1 ^^^ s.reg rs2)
  | .clmul rd rs1 rs2 sel, s => s.setReg rd
      (clmul64 (selHalf (s.reg rs1) (sel.getLsbD 0)) (selHalf (s.reg rs2) (sel.getLsbD 1)))
  | .clmulw rs1 rs2, s => (s.setReg Reg.pl (clmulLow (s.reg rs1) (s.reg rs2))).setReg Reg.ph
      (clmulHigh (s.reg rs1) (s.reg rs2))
  | .clmac rs1 rs2, s =>
      (s.setReg Reg.pl (s.reg Reg.pl ^^^ clmulLow (s.reg rs1) (s.reg rs2))).setReg Reg.ph
        (s.reg Reg.ph ^^^ clmulHigh (s.reg rs1) (s.reg rs2))
  | .gfred rd, s => s.setReg rd (gfReduce (s.reg Reg.ph) (s.reg Reg.pl))
  | .gfmul rd rs1 rs2, s => s.setReg rd (gfmul (s.reg rs1) (s.reg rs2))
  | .bldtbl n, s => buildTable (s.reg Reg.h) n s
  | .foldh, s => if s.len = 0#32 then s else s.setReg Reg.acc (hornerAcc s)
  | .foldb w, s => if s.len = 0#32 then s else s.setReg Reg.acc (batchedAcc w s)
  | .aesenc rd rs1 rs2, s => s.setReg rd (encRound (s.reg rs1) (s.reg rs2))
  | .aesenclast rd rs1 rs2, s => s.setReg rd (encLast (s.reg rs1) (s.reg rs2))
  | .aesblk rd rs1, s => s.setReg rd (s.encrypt (s.reg rs1))
  | .ctrinc k, s => s.setReg Reg.ctr (ctrAdd (s.reg Reg.ctr) k)
  | .ctrenc, s => codec false s
  | .ctrdec, s => codec true s

/-- Every meaning is its effect under the checks. -/
theorem exec_eq_checked (i : Instr) (s : State) : exec i s = checked i (effect i) s := by
  cases i <;> rfl

/-- Everything `exec` can answer: the effect, or the fault of the first failing check. -/
theorem exec_cases {i : Instr} {s t : State} (h : exec i s = .next t) :
    (firstFailure i s = .noFault ∧ t = effect i s) ∨
      (firstFailure i s ≠ .noFault ∧ t = raiseFault (firstFailure i s) (encode i) s) :=
  checked_cases (by rw [← exec_eq_checked]; exact h)

theorem exec_of_noFault {i : Instr} {s : State} (h : firstFailure i s = .noFault) :
    exec i s = .next (effect i s) := by rw [exec_eq_checked, checked_of_noFault h]

theorem exec_of_fault {i : Instr} {s : State} (h : firstFailure i s ≠ .noFault) :
    exec i s = .next (raiseFault (firstFailure i s) (encode i) s) := by
  rw [exec_eq_checked, checked_of_fault h]

/-- Everything a write of `CMD` can do: ignored, illegal, or a command run (R241, R248). -/
theorem issueCommand_cases (w : Word) (s : State) :
    (s.err = true ∧ issueCommand w s = .next s) ∨
    (s.err = false ∧ ∃ e, decode w = .error e ∧
      issueCommand w s = .next (raiseFault .illegal w { s with lastcmd := w })) ∨
    (s.err = false ∧ ∃ i, decode w = .ok i ∧ issueCommand w s = exec i { s with lastcmd := w }) := by
  cases he : s.err
  · cases hd : decode w with
    | error e => right; left; simp [issueCommand, acceptCommand, he, hd]
    | ok i => right; right; simp [issueCommand, acceptCommand, he, hd]
  · left; simp [issueCommand, he]

/-- A step takes the next action, if there is one (R15, R30). -/
theorem step_of_pending {s : State} {a : HostAction} {rest : List HostAction}
    (h : s.pending = a :: rest) :
    step s = perform a { s with pending := rest, cp := s.cp + 1 } := by
  simp [step, runNext, h]

theorem step_of_idle {s : State} (h : s.pending = []) : runNext s = .next s := by
  simp [runNext, h]

/-- Everything a write of a port register other than `CMD` and `CTRL` can do (R41, R248). -/
theorem writePort_of_plain {r : PortReg} (v : Word) (s : State) (h1 : r ≠ .cmd) (h2 : r ≠ .ctrl) :
    writePort r v s = .next (if s.err then s else writeReg r v s) := by
  cases r <;> first | rfl | contradiction

end Sys2Proof.Machine
end

