-- ==== Sys2Proof/Laws/Port.lean ====
section
/-! SUPPORT. The address map of the register port (10_state.md R40, R41), and everything an action
between commands can do, said once. -/

namespace Sys2Proof.Machine

theorem portReg_eq_cmd (slot : PortSlot) : portReg slot = .cmd ↔ slot = 128 := by
  revert slot; decide +kernel

theorem portReg_eq_ctrl (slot : PortSlot) : portReg slot = .ctrl ↔ slot = 135 := by
  revert slot; decide +kernel

/-- Lane `j` of register `i` is at byte offset `16*i + 4*j` (R41). -/
theorem portReg_lane (i : RegIdx) (j : Fin 4) (slot : PortSlot)
    (h : slot.val = 4 * i.val + j.val) : portReg slot = .lane i j := by
  have hi := i.isLt
  have hj := j.isLt
  have h1 : slot.val < 128 := by omega
  have h2 : Fin.ofNat 32 (slot.val / 4) = i := Fin.ext (by simp [Fin.ofNat]; omega)
  have h3 : Fin.ofNat 4 (slot.val % 4) = j := Fin.ext (by simp [Fin.ofNat]; omega)
  rw [portReg, if_pos h1, h2, h3]

/-- Offsets past `FCMD` are reserved (R41). -/
theorem portReg_reserved (slot : PortSlot) (h : 136 < slot.val) : portReg slot = .reserved := by
  revert slot; decide +kernel

/-- Everything a port write can do (R36, R39, R41, R248): a write of `CMD`, a soft reset, an ignored
write, or the register written. -/
theorem writePort_cases (r : PortReg) (v : Word) (s : State) :
    (r = .cmd ∧ writePort r v s = issueCommand v s) ∨
    (r = .ctrl ∧ writePort r v s = .next (writeCtrl v s)) ∨
    (r ≠ .cmd ∧ r ≠ .ctrl ∧ s.err = true ∧ writePort r v s = .next s) ∨
    (r ≠ .cmd ∧ r ≠ .ctrl ∧ s.err = false ∧ writePort r v s = .next (writeReg r v s)) := by
  by_cases h1 : r = .cmd
  · subst h1; exact .inl ⟨rfl, rfl⟩
  · by_cases h2 : r = .ctrl
    · subst h2; exact .inr (.inl ⟨rfl, rfl⟩)
    · rw [writePort_of_plain v s h1 h2]
      cases he : s.err <;> simp [h1, h2]

/-- Everything a write of `CTRL` can do (R39). -/
theorem writeCtrl_cases (v : Word) (s : State) :
    (v.getLsbD 0 = true ∧ writeCtrl v s = resetCore s) ∨
    (v.getLsbD 0 = false ∧ writeCtrl v s = s) := by
  cases h : v.getLsbD 0
  · exact .inr ⟨rfl, by rw [writeCtrl, h]; rfl⟩
  · exact .inl ⟨rfl, by rw [writeCtrl, h]; rfl⟩

/-- Everything one action can do (R256, R270). -/
theorem perform_cases (a : HostAction) (s : State) :
    (∃ slot, a = .portRead slot ∧
      perform a s = .next { s with seen := .port slot (readPort s (portReg slot)) :: s.seen }) ∨
    (∃ x, a = .memRead x ∧
      perform a s = .next { s with seen := .mem x (s.mem.read x.toNat) :: s.seen }) ∨
    (∃ x v, a = .memWrite x v ∧ perform a s = .next { s with mem := s.mem.write x.toNat v }) ∨
    (a = .hardReset ∧ perform a s = .next (resetCore s)) ∨
    (∃ w, a = .hardResetDuring w ∧ perform a s = .next (resetDuring w s)) ∨
    (∃ slot v, a = .portWrite slot v ∧ perform a s = writePort (portReg slot) v s) := by
  cases a with
  | portRead slot => exact .inl ⟨slot, rfl, rfl⟩
  | memRead x => exact .inr (.inl ⟨x, rfl, rfl⟩)
  | memWrite x v => exact .inr (.inr (.inl ⟨x, v, rfl, rfl⟩))
  | hardReset => exact .inr (.inr (.inr (.inl ⟨rfl, rfl⟩)))
  | hardResetDuring w => exact .inr (.inr (.inr (.inr (.inl ⟨w, rfl, rfl⟩))))
  | portWrite slot v => exact .inr (.inr (.inr (.inr (.inr ⟨slot, v, rfl, rfl⟩))))

end Sys2Proof.Machine
end

