-- ==== Sys2Proof/Laws/Effect.lean ====
section
/-! SUPPORT. What the effects of the commands leave alone, and what BLDTBL and the codec leave in the
registers, said once. -/

namespace Sys2Proof.Machine

/-- One entry of the table built: only registers change. -/
theorem buildEntry_frame (h : Block) (n : Nat) (s : State) (k : Nat) :
    buildEntry h n s k =
      { s with x := (buildEntry h n s k).x, xv := (buildEntry h n s k).xv } := by
  unfold buildEntry; split <;> rfl

theorem foldl_buildEntry_frame (h : Block) (n : Nat) (ks : List Nat) (s : State) :
    ks.foldl (buildEntry h n) s =
      { s with x := (ks.foldl (buildEntry h n) s).x, xv := (ks.foldl (buildEntry h n) s).xv } := by
  induction ks generalizing s with
  | nil => rfl
  | cons k ks ih =>
    rw [List.foldl_cons, ih, buildEntry_frame h n s k]

/-- BLDTBL changes only registers (R151). -/
theorem buildTable_frame (h : Block) (n : Nat) (s : State) :
    buildTable h n s = { s with x := (buildTable h n s).x, xv := (buildTable h n s).xv } :=
  foldl_buildEntry_frame h n _ s

/-- One entry of the table built: that register alone. -/
theorem reg_buildEntry (h : Block) (n : Nat) (s : State) (k : Nat) (r : RegIdx) :
    (buildEntry h n s k).reg r =
      if Reg.t k = r then (if k < n then hashPower h k else 0#128) else s.reg r := by
  unfold buildEntry; split <;> simp [*]

theorem xv_buildEntry (h : Block) (n : Nat) (s : State) (k : Nat) (r : RegIdx) :
    (buildEntry h n s k).xv[r] =
      if Reg.t k = r then (if k < n then 0xF#4 else 0#4) else s.xv[r] := by
  unfold buildEntry
  split
  · rw [xv_setReg]
  · rw [xv_invalidate]

/-- The table after BLDTBL, register by register (R151). -/
theorem reg_buildTable (h : Block) (n : Nat) (s : State) (r : RegIdx) :
    (buildTable h n s).reg r =
      if r.val < 8 then (if r.val < n then hashPower h r.val else 0#128) else s.reg r := by
  have e : List.range Config.tableSize = [0, 1, 2, 3, 4, 5, 6, 7] := rfl
  simp only [buildTable, e, List.foldl_cons, List.foldl_nil, reg_buildEntry]
  revert r
  simp only [Fin.forall_iff]
  intro r hr
  interval_cases r <;> simp [Reg.t, Fin.ofNat]

theorem xv_buildTable (h : Block) (n : Nat) (s : State) (r : RegIdx) :
    (buildTable h n s).xv[r] =
      if r.val < 8 then (if r.val < n then 0xF#4 else 0#4) else s.xv[r] := by
  have e : List.range Config.tableSize = [0, 1, 2, 3, 4, 5, 6, 7] := rfl
  simp only [buildTable, e, List.foldl_cons, List.foldl_nil, xv_buildEntry]
  revert r
  simp only [Fin.forall_iff]
  intro r hr
  interval_cases r <;> simp [Reg.t, Fin.ofNat]

/-- The codec changes registers and memory only (R220, R221). -/
theorem codec_frame (dec : Bool) (s : State) :
    codec dec s =
      { s with x := (codec dec s).x, xv := (codec dec s).xv, mem := (codec dec s).mem } := by
  unfold codec; simp only; split <;> rfl

@[simp] theorem codec_mem (dec : Bool) (s : State) : (codec dec s).mem = (codecPhases dec s).mem := by
  unfold codec; simp only; split <;> rfl

/-- The registers after a codec command: `CTR`, and `ACC` when `LEN >= 1` (R215, R219). -/
theorem reg_codec (dec : Bool) (s : State) (r : RegIdx) :
    (codec dec s).reg r =
      if r = Reg.ctr then (codecPhases dec s).ctr
      else if r = Reg.acc ∧ s.len ≠ 0#32 then (codecPhases dec s).acc else s.reg r := by
  have hne : Reg.acc ≠ Reg.ctr := by decide
  by_cases hl : s.len = 0#32
  · simp only [codec, hl, if_true, reg_setReg]
    by_cases h : r = Reg.ctr
    · simp [h]
    · simp [h, Ne.symm h]; rfl
  · simp only [codec, hl, if_false, reg_setReg]
    by_cases h : r = Reg.ctr
    · subst h; simp [hne]
    · by_cases h2 : r = Reg.acc
      · subst h2; simp [h, hl]
      · simp [h, h2, Ne.symm h, Ne.symm h2]; rfl

theorem xv_codec (dec : Bool) (s : State) (r : RegIdx) :
    (codec dec s).xv[r] =
      if r = Reg.ctr ∨ (r = Reg.acc ∧ s.len ≠ 0#32) then 0xF#4 else s.xv[r] := by
  by_cases hl : s.len = 0#32
  · simp only [codec, hl, if_true, xv_setReg]
    by_cases h : r = Reg.ctr
    · simp [h]
    · simp [h, Ne.symm h]
  · simp only [codec, hl, if_false, xv_setReg]
    by_cases h2 : r = Reg.acc
    · simp [h2, hl]
    · by_cases h : r = Reg.ctr
      · simp [h]
      · simp [h, h2, Ne.symm h, Ne.symm h2]

/-- The effect of a command changes registers and memory only (R34, R241). -/
theorem effect_frame (i : Instr) (s : State) :
    effect i s =
      { s with x := (effect i s).x, xv := (effect i s).xv, mem := (effect i s).mem } := by
  cases i with
  | bldtbl n => simp only [effect]; rw [buildTable_frame]
  | ctrenc => exact codec_frame false s
  | ctrdec => exact codec_frame true s
  | foldh => simp only [effect]; split <;> rfl
  | foldb w => simp only [effect]; split <;> rfl
  | _ => rfl

/-- The latch is not touched by an effect. -/
theorem effect_err (i : Instr) (s : State) : (effect i s).err = s.err := by rw [effect_frame]

theorem effect_cause (i : Instr) (s : State) : (effect i s).cause = s.cause := by rw [effect_frame]

theorem effect_fcmd (i : Instr) (s : State) : (effect i s).fcmd = s.fcmd := by rw [effect_frame]

theorem effect_lastcmd (i : Instr) (s : State) : (effect i s).lastcmd = s.lastcmd := by
  rw [effect_frame]

/-- Only the codec's effect writes memory (R68). -/
theorem effect_mem (i : Instr) (s : State) (h : writesOutput i = false) :
    (effect i s).mem = s.mem := by
  cases i with
  | bldtbl n => simp only [effect]; rw [buildTable_frame]
  | ctrenc => simp [writesOutput] at h
  | ctrdec => simp [writesOutput] at h
  | foldh => simp only [effect]; split <;> rfl
  | foldb w => simp only [effect]; split <;> rfl
  | _ => rfl

end Sys2Proof.Machine
end

