-- ==== Sys2Proof/Laws/Codec.lean ====
section
/-! SUPPORT. What the codec's phases do, block by block: after `k` full blocks the output holds `k` blocks
of input xor keystream, the counter has advanced by `k`, and nothing else in memory has changed
(45_ctr_codec.md R215, R216, R218). -/

namespace Sys2Proof.Machine

/-- Advances add up (R210). -/
theorem ctrAdd_ctrAdd (c : Block) (a b : Nat) : ctrAdd (ctrAdd c a) b = ctrAdd c (a + b) := by
  have h1 : (ctrAdd c a).extractLsb' 32 96 = c.extractLsb' 32 96 := by
    ext i hi
    have h : ¬ 32 + i < 32 := by omega
    rw [BitVec.getElem_extractLsb', ctrAdd, BitVec.getLsbD_append, if_neg h]
    simp [hi]
  have h2 : laneOf (ctrAdd c a) 0 = laneOf c 0 + BitVec.ofNat 32 a := by
    ext i hi
    rw [laneOf, BitVec.getElem_extractLsb', ctrAdd, BitVec.getLsbD_append, if_pos (by omega)]
    rw [BitVec.getLsbD_eq_getElem (by omega)]; congr 1; omega
  rw [ctrAdd, h1, h2, ctrAdd, BitVec.add_assoc, BitVec.ofNat_add]

theorem ctrAdd_zero (c : Block) : ctrAdd c 0 = c := by
  ext i hi
  rw [ctrAdd, BitVec.getElem_append]
  split
  · simp [laneOf, BitVec.getLsbD_eq_getElem hi]
  · have e : 32 + (i - 32) = i := by omega
    simp [e, BitVec.getLsbD_eq_getElem hi]

/-- Input block `k` of a codec command. -/
def inBlock (s : State) (k : Nat) : Block := s.mem.readBlock (s.src.toNat + 16 * k) 16

/-- Keystream block `k` (R213, R215). -/
def ksBlock (s : State) (k : Nat) : Block :=
  s.encrypt (ctrAdd (initialCounter (s.reg Reg.tag)) k)

/-- Ciphertext block `k` (R214). -/
def ctBlock (dec : Bool) (s : State) (k : Nat) : Block :=
  ciphertextOf dec (inBlock s k) (inBlock s k ^^^ ksBlock s k)

/-- The two buffers have no address in common (R70). -/
def Apart (s : State) : Prop :=
  ∀ k j, k < s.len.toNat → j < s.len.toNat → s.src.toNat + k ≠ s.dst.toNat + j

theorem apart_of_not_meet {s : State} (h : ¬ BuffersMeet s) : Apart s := by
  intro k j hk hj e
  exact h ⟨s.src.toNat + k, ⟨by omega, by omega⟩, ⟨by omega, by omega⟩⟩

/-- The run has consumed `k` full blocks. -/
structure CodecAt (s : State) (k : Nat) (c : CodecRun) : Prop where
  sorted : Memory.sorted c.mem
  pos : c.pos = 16 * k
  ctr : c.ctr = ctrAdd (initialCounter (s.reg Reg.tag)) k
  read : ∀ a, c.mem.read a =
    if s.dst.toNat ≤ a ∧ a < s.dst.toNat + 16 * k then
      byteOf (inBlock s ((a - s.dst.toNat) / 16) ^^^ ksBlock s ((a - s.dst.toNat) / 16))
        ((a - s.dst.toNat) % 16)
    else s.mem.read a

theorem codecAt_start {s : State} (hm : Memory.sorted s.mem) : CodecAt s 0 (codecStart s) :=
  ⟨hm, rfl, (ctrAdd_zero _).symm, fun a => by
    rw [if_neg (by omega)]; rfl⟩

/-- Input not yet consumed reads as it did before the command, the buffers being apart. -/
theorem CodecAt.readBlock_input {s : State} {k : Nat} {c : CodecRun} (h : CodecAt s k c)
    (hap : Apart s) {o r : Nat} (hr : o + r ≤ s.len.toNat) (hk : 16 * k ≤ s.len.toNat) :
    c.mem.readBlock (s.src.toNat + o) r = s.mem.readBlock (s.src.toNat + o) r := by
  refine Memory.readBlock_congr fun i hi => ?_
  rw [h.read, if_neg]
  rintro ⟨h1, h2⟩
  exact hap (o + i) (s.src.toNat + o + i - s.dst.toNat) (by omega) (by omega) (by omega)

/-- A block of output written after the `k` already there. -/
theorem CodecAt.write {s : State} {k n : Nat} {c c' : CodecRun} (h : CodecAt s k c)
    (hmem : c'.mem = c.mem.writeBlocks (s.dst.toNat + c.pos)
      ((List.range n).map (fun j => inBlock s (k + j) ^^^ ksBlock s (k + j))))
    (hpos : c'.pos = c.pos + 16 * n) (hctr : c'.ctr = ctrAdd c.ctr n) : CodecAt s (k + n) c' := by
  refine ⟨?_, ?_, ?_, fun a => ?_⟩
  · rw [hmem]; exact Memory.sorted_writeBlocks _ _ _ h.sorted
  · rw [hpos, h.pos]; omega
  · rw [hctr, h.ctr, ctrAdd_ctrAdd]
  · rw [hmem, h.pos, Memory.read_writeBlocks _ _ _ _ h.sorted, h.read]
    simp only [List.length_map, List.length_range]
    by_cases h1 : s.dst.toNat + 16 * k ≤ a ∧ a < s.dst.toNat + 16 * k + 16 * n
    · have h2 : s.dst.toNat ≤ a ∧ a < s.dst.toNat + 16 * (k + n) := by omega
      have hlt : (a - (s.dst.toNat + 16 * k)) / 16 < n := by omega
      have e1 : k + (a - (s.dst.toNat + 16 * k)) / 16 = (a - s.dst.toNat) / 16 := by omega
      have e2 : (a - (s.dst.toNat + 16 * k)) % 16 = (a - s.dst.toNat) % 16 := by omega
      rw [if_pos h1, if_pos h2, e2]
      simp [List.getD_eq_getElem?_getD, hlt, e1]
    · rw [if_neg h1]
      by_cases h3 : s.dst.toNat ≤ a ∧ a < s.dst.toNat + 16 * k
      · have h2 : s.dst.toNat ≤ a ∧ a < s.dst.toNat + 16 * (k + n) := by omega
        rw [if_pos h3, if_pos h2]
      · have h2 : ¬ (s.dst.toNat ≤ a ∧ a < s.dst.toNat + 16 * (k + n)) := by omega
        rw [if_neg h3, if_neg h2]

/-- One block of Phase B (R215). -/
theorem phaseB_at {dec : Bool} {s : State} {k : Nat} {c : CodecRun} (h : CodecAt s k c)
    (hap : Apart s) (hk : 16 * (k + 1) ≤ s.len.toNat) :
    CodecAt s (k + 1) (phaseB dec s c) ∧
      (phaseB dec s c).acc = foldStep (s.table 0) c.acc (ctBlock dec s k) := by
  have hin : c.mem.readBlock (s.src.toNat + c.pos) 16 = inBlock s k := by
    rw [h.pos]; exact h.readBlock_input hap (by omega) (by omega)
  have hks : s.encrypt c.ctr = ksBlock s k := by rw [h.ctr]; rfl
  refine ⟨h.write (n := 1) ?_ rfl rfl, ?_⟩
  · simp only [phaseB, hin, hks]; rfl
  · simp only [phaseB, hin, hks, ctBlock]

/-- One super-block of Phase A (R216). -/
theorem phaseA_at {dec : Bool} {s : State} {k : Nat} {c : CodecRun} (h : CodecAt s k c)
    (hap : Apart s) (hk : 16 * (k + 6) ≤ s.len.toNat) :
    CodecAt s (k + 6) (phaseA dec s c) ∧
      (phaseA dec s c).acc =
        groupFold s.table c.acc ((List.range 6).map (fun j => ctBlock dec s (k + j))) := by
  have hin : c.mem.fullBlocks (s.src.toNat + c.pos) 6 =
      (List.range 6).map (fun j => inBlock s (k + j)) := by
    refine List.map_congr_left fun j hj => ?_
    have hj6 : j < 6 := List.mem_range.mp hj
    have e : s.src.toNat + c.pos + 16 * j = s.src.toNat + 16 * (k + j) := by rw [h.pos]; omega
    rw [e]; exact h.readBlock_input hap (by omega) (by omega)
  have hks : (List.range 6).map (fun j => s.encrypt (ctrAdd c.ctr j)) =
      (List.range 6).map (fun j => ksBlock s (k + j)) := by
    refine List.map_congr_left fun j _ => ?_
    rw [h.ctr, ctrAdd_ctrAdd]; rfl
  have hout : List.zipWith (fun i k => i ^^^ k) ((List.range 6).map (fun j => inBlock s (k + j)))
      ((List.range 6).map (fun j => ksBlock s (k + j))) =
      (List.range 6).map (fun j => inBlock s (k + j) ^^^ ksBlock s (k + j)) := by
    simp [List.zipWith_map]
  have hct : List.zipWith (ciphertextOf dec) ((List.range 6).map (fun j => inBlock s (k + j)))
      ((List.range 6).map (fun j => inBlock s (k + j) ^^^ ksBlock s (k + j))) =
      (List.range 6).map (fun j => ctBlock dec s (k + j)) := by
    simp [List.zipWith_map, ctBlock]
  refine ⟨h.write (n := 6) ?_ rfl rfl, ?_⟩
  · simp only [phaseA, Config.codecWidth, hin, hks, hout]
  · simp only [phaseA, Config.codecWidth, hin, hks, hout, hct]

/-- Phase B repeated (R215). -/
theorem repeat_phaseB_at {dec : Bool} {s : State} (hap : Apart s) (n : Nat) {k : Nat} {c : CodecRun}
    (h : CodecAt s k c) (hk : 16 * (k + n) ≤ s.len.toNat) :
    CodecAt s (k + n) (repeatPhase (phaseB dec s) n c) ∧
      (repeatPhase (phaseB dec s) n c).acc =
        hornerFold c.acc (s.table 0) ((List.range n).map (fun j => ctBlock dec s (k + j))) := by
  induction n generalizing k c with
  | zero => exact ⟨h, rfl⟩
  | succ n ih =>
    obtain ⟨h1, a1⟩ := phaseB_at (dec := dec) h hap (by omega)
    obtain ⟨h2, a2⟩ := ih h1 (by omega)
    have e : k + 1 + n = k + (n + 1) := by omega
    refine ⟨e ▸ h2, ?_⟩
    rw [repeatPhase, a2, a1, List.range_succ_eq_map]
    simp only [List.map_cons, List.map_map, hornerFold, List.foldl_cons, Nat.add_zero]
    congr 1
    refine List.map_congr_left fun j _ => ?_
    simp only [Function.comp]; congr 1; omega

/-- Phase A repeated (R215). -/
theorem repeat_phaseA_at {dec : Bool} {s : State} (hap : Apart s) (n : Nat) {k : Nat} {c : CodecRun}
    (h : CodecAt s k c) (hk : 16 * (k + 6 * n) ≤ s.len.toNat) :
    CodecAt s (k + 6 * n) (repeatPhase (phaseA dec s) n c) ∧
      (repeatPhase (phaseA dec s) n c).acc =
        foldGroups s.table 6 n c.acc
          ((List.range (6 * n)).map (fun j => ctBlock dec s (k + j))) := by
  induction n generalizing k c with
  | zero => exact ⟨h, rfl⟩
  | succ n ih =>
    obtain ⟨h1, a1⟩ := phaseA_at (dec := dec) h hap (by omega)
    obtain ⟨h2, a2⟩ := ih h1 (by omega)
    have e : k + 6 + 6 * n = k + 6 * (n + 1) := by omega
    refine ⟨e ▸ h2, ?_⟩
    have hsplit : List.range (6 * (n + 1)) = List.range 6 ++ (List.range (6 * n)).map (6 + ·) := by
      rw [← List.range_add]; congr 1; omega
    have ht : ((List.range (6 * (n + 1))).map (fun j => ctBlock dec s (k + j))).take 6 =
        (List.range 6).map (fun j => ctBlock dec s (k + j)) := by
      rw [hsplit, List.map_append, List.take_left' (by simp)]
    have hd : ((List.range (6 * (n + 1))).map (fun j => ctBlock dec s (k + j))).drop 6 =
        (List.range (6 * n)).map (fun j => ctBlock dec s (k + 6 + j)) := by
      rw [hsplit, List.map_append, List.drop_left' (by simp), List.map_map]
      refine List.map_congr_left fun j _ => ?_
      simp only [Function.comp]; congr 1; omega
    rw [repeatPhase, a2, a1, foldGroups, ht, hd]

/-- The full blocks of a codec command: Phases A and B (R215). -/
theorem codec_full_at {dec : Bool} {s : State} (hm : Memory.sorted s.mem) (hap : Apart s) :
    let n := s.len.toNat
    let c := repeatPhase (phaseB dec s) (n % 96 / 16)
      (repeatPhase (phaseA dec s) (n / 96) (codecStart s))
    CodecAt s (n / 16) c ∧
      c.acc = hornerFold
        (foldGroups s.table 6 (n / 96) (s.reg Reg.acc)
          ((List.range (6 * (n / 96))).map (ctBlock dec s)))
        (s.table 0)
        ((List.range (n % 96 / 16)).map (fun j => ctBlock dec s (6 * (n / 96) + j))) := by
  intro n c
  obtain ⟨h1, a1⟩ := repeat_phaseA_at (dec := dec) hap (n / 96) (codecAt_start hm)
    (by simp only [n]; omega)
  obtain ⟨h2, a2⟩ := repeat_phaseB_at (dec := dec) hap (n % 96 / 16) h1 (by simp only [n]; omega)
  have e : 0 + 6 * (n / 96) + n % 96 / 16 = n / 16 := by omega
  refine ⟨e ▸ h2, ?_⟩
  simp only [Nat.zero_add] at a1 a2
  rw [a2, a1]; rfl

/-- The input tail of a codec command, zero-padded (R66, R218). -/
def inTail (s : State) : Block :=
  s.mem.readBlock (s.src.toNat + 16 * (s.len.toNat / 16)) (s.len.toNat % 16)

/-- The ciphertext tail (R214, R218). -/
def ctTail (dec : Bool) (s : State) : Block :=
  ciphertextOf dec (inTail s) (keepBytes (inTail s ^^^ ksBlock s (s.len.toNat / 16)) (s.len.toNat % 16))

/-- Byte `k` of the output: input xor keystream (R215, R218). -/
def outByte (s : State) (k : Nat) : Byte :=
  s.mem.read (s.src.toNat + k) ^^^ byteOf (ksBlock s (k / 16)) (k % 16)

theorem byteOf_outBlock (s : State) (k i : Nat) (hi : i < 16) :
    byteOf (inBlock s k ^^^ ksBlock s k) i = outByte s (16 * k + i) := by
  have e1 : (16 * k + i) / 16 = k := by omega
  have e2 : (16 * k + i) % 16 = i := by omega
  rw [byteOf_xor, inBlock, Memory.byteOf_readBlock _ _ _ _ hi, if_pos hi, outByte, e1, e2, Nat.add_assoc]

theorem CodecAt.read_eq {s : State} {k : Nat} {c : CodecRun} (h : CodecAt s k c) (a : Nat) :
    c.mem.read a = if s.dst.toNat ≤ a ∧ a < s.dst.toNat + 16 * k then outByte s (a - s.dst.toNat)
      else s.mem.read a := by
  rw [h.read]
  split
  · rw [byteOf_outBlock _ _ _ (Nat.mod_lt _ (by omega))]; congr 1; omega
  · rfl

/-- Memory, counter and accumulator after the three phases (R215 to R219). -/
theorem codecPhases_spec {dec : Bool} {s : State} (hm : Memory.sorted s.mem) (hap : Apart s) :
    (codecPhases dec s).ctr = ctrAdd (initialCounter (s.reg Reg.tag)) (s.len.toNat / 16) ∧
    Memory.sorted (codecPhases dec s).mem ∧
    (∀ a, (codecPhases dec s).mem.read a =
      if s.dst.toNat ≤ a ∧ a < s.dst.toNat + s.len.toNat then outByte s (a - s.dst.toNat)
      else s.mem.read a) ∧
    (codecPhases dec s).acc = hornerFold
      (foldGroups s.table 6 (s.len.toNat / 96) (s.reg Reg.acc)
        ((List.range (6 * (s.len.toNat / 96))).map (ctBlock dec s)))
      (s.table 0)
      ((List.range (s.len.toNat % 96 / 16)).map (fun j => ctBlock dec s (6 * (s.len.toNat / 96) + j)) ++
        if s.len.toNat % 16 = 0 then [] else [ctTail dec s]) := by
  obtain ⟨h1, h2⟩ := codec_full_at (dec := dec) hm hap
  by_cases h0 : s.len.toNat % 16 = 0
  · have e : codecPhases dec s = repeatPhase (phaseB dec s) (s.len.toNat % 96 / 16)
      (repeatPhase (phaseA dec s) (s.len.toNat / 96) (codecStart s)) := by
      simp only [codecPhases, h0, if_true]
    rw [e]
    refine ⟨h1.ctr, h1.sorted, fun a => ?_, by rw [h2, if_pos h0, List.append_nil]⟩
    rw [h1.read_eq]
    have : 16 * (s.len.toNat / 16) = s.len.toNat := by omega
    rw [this]
  · have e : codecPhases dec s = phaseC dec s (s.len.toNat % 16)
      (repeatPhase (phaseB dec s) (s.len.toNat % 96 / 16)
        (repeatPhase (phaseA dec s) (s.len.toNat / 96) (codecStart s))) := by
      simp only [codecPhases, h0, if_false]
    rw [e]
    generalize repeatPhase (phaseB dec s) (s.len.toNat % 96 / 16)
        (repeatPhase (phaseA dec s) (s.len.toNat / 96) (codecStart s)) = c at h1 h2
    have hin : c.mem.readBlock (s.src.toNat + c.pos) (s.len.toNat % 16) = inTail s := by
      rw [h1.pos]; exact h1.readBlock_input hap (by omega) (by omega)
    have hks : s.encrypt c.ctr = ksBlock s (s.len.toNat / 16) := by rw [h1.ctr]; rfl
    simp only [phaseC, hin, hks]
    refine ⟨h1.ctr, Memory.sorted_writeBlock _ _ _ _ h1.sorted, fun a => ?_, ?_⟩
    · rw [Memory.read_writeBlock _ _ _ _ _ h1.sorted, h1.pos, h1.read_eq]
      by_cases hA : s.dst.toNat + 16 * (s.len.toNat / 16) ≤ a ∧
          a < s.dst.toNat + 16 * (s.len.toNat / 16) + s.len.toNat % 16
      · have hi : a - (s.dst.toNat + 16 * (s.len.toNat / 16)) < s.len.toNat % 16 := by omega
        have hi16 : a - (s.dst.toNat + 16 * (s.len.toNat / 16)) < 16 := by omega
        rw [if_pos hA, if_pos (by omega), byteOf_keepBytes _ _ _ hi16, if_pos hi, byteOf_xor, inTail,
          Memory.byteOf_readBlock _ _ _ _ hi16, if_pos hi, outByte]
        have e1 : (a - s.dst.toNat) / 16 = s.len.toNat / 16 := by omega
        have e2 : (a - s.dst.toNat) % 16 = a - (s.dst.toNat + 16 * (s.len.toNat / 16)) := by omega
        have e3 : s.src.toNat + 16 * (s.len.toNat / 16) + (a - (s.dst.toNat + 16 * (s.len.toNat / 16))) =
          s.src.toNat + (a - s.dst.toNat) := by omega
        rw [e1, e2, e3]
      · rw [if_neg hA]
        by_cases hB : s.dst.toNat ≤ a ∧ a < s.dst.toNat + 16 * (s.len.toNat / 16)
        · rw [if_pos hB, if_pos (by omega)]
        · rw [if_neg hB, if_neg (by omega)]
    · rw [h2, if_neg h0]
      simp only [hornerFold, List.foldl_append, List.foldl_cons, List.foldl_nil]
      rfl

/-- The ciphertext blocks of a codec command (R214, R217). -/
def ctBlocks (dec : Bool) (s : State) : List Block :=
  (List.range (s.len.toNat / 16)).map (ctBlock dec s) ++
    if s.len.toNat % 16 = 0 then [] else [ctTail dec s]

/-- When decrypting they are the blocks of the input buffer (R214). -/
theorem ctBlocks_dec (s : State) :
    ctBlocks true s = s.mem.bufferBlocks s.src.toNat s.len.toNat := rfl

/-- When encrypting they are the blocks of the output buffer after the command (R214). -/
theorem ctBlocks_enc {s : State} (hm : Memory.sorted s.mem) (hap : Apart s) :
    ctBlocks false s = (codecPhases false s).mem.bufferBlocks s.dst.toNat s.len.toNat := by
  obtain ⟨-, -, hr, -⟩ := codecPhases_spec (dec := false) hm hap
  rw [ctBlocks, Memory.bufferBlocks, Memory.fullBlocks]
  congr 1
  · refine List.map_congr_left fun k hk => block_ext fun i hi => ?_
    have hk' := List.mem_range.mp hk
    rw [Memory.byteOf_readBlock _ _ _ _ hi, if_pos hi, hr, if_pos (by omega)]
    rw [show s.dst.toNat + 16 * k + i - s.dst.toNat = 16 * k + i by omega, ← byteOf_outBlock _ _ _ hi]
    rfl
  · split
    · rfl
    · next h0 =>
      congr 1
      refine block_ext fun i hi => ?_
      rw [Memory.byteOf_readBlock _ _ _ _ hi, ctTail, ciphertextOf]
      simp only [Bool.false_eq_true, if_false]
      rw [byteOf_keepBytes _ _ _ hi]
      by_cases hir : i < s.len.toNat % 16
      · rw [if_pos hir, if_pos hir, hr, if_pos (by omega), byteOf_xor, inTail,
          Memory.byteOf_readBlock _ _ _ _ hi, if_pos hir, outByte]
        have e1 : (s.dst.toNat + 16 * (s.len.toNat / 16) + i - s.dst.toNat) = 16 * (s.len.toNat / 16) + i := by omega
        have e2 : (16 * (s.len.toNat / 16) + i) / 16 = s.len.toNat / 16 := by omega
        have e3 : (16 * (s.len.toNat / 16) + i) % 16 = i := by omega
        rw [e1, e2, e3, Nat.add_assoc]
      · rw [if_neg hir, if_neg hir]

/-- The accumulator after a codec command, in terms of its ciphertext blocks (R215). -/
theorem codecPhases_acc {dec : Bool} {s : State} (hm : Memory.sorted s.mem) (hap : Apart s) :
    (codecPhases dec s).acc = hornerFold
      (foldGroups s.table 6 (s.len.toNat / 96) (s.reg Reg.acc)
        ((ctBlocks dec s).take (6 * (s.len.toNat / 96))))
      (s.table 0) ((ctBlocks dec s).drop (6 * (s.len.toNat / 96))) := by
  obtain ⟨-, -, -, ha⟩ := codecPhases_spec (dec := dec) hm hap
  have hsplit : List.range (s.len.toNat / 16) = List.range (6 * (s.len.toNat / 96)) ++
      (List.range (s.len.toNat % 96 / 16)).map (6 * (s.len.toNat / 96) + ·) := by
    rw [← List.range_add]; congr 1; omega
  rw [ha, ctBlocks, hsplit, List.map_append, List.append_assoc, List.take_left' (by simp),
    List.drop_left' (by simp), List.map_map]
  rfl

end Sys2Proof.Machine
end

