-- ==== Sys2Proof/Laws/Decode.lean ====
section
/-! SUPPORT. The fields of a packed command word read back (30_encoding.md R90), and the values a
register field takes (R93). -/

namespace Sys2Proof

section

variable (op : BitVec 8) (rd rs1 rs2 : BitVec 5) (imm : BitVec 9)

/-- One bit of a packed word, by the field it lies in (R90). -/
theorem getLsbD_packWord (k : Nat) : (packWord op rd rs1 rs2 imm).getLsbD k =
    if k < 9 then imm.getLsbD k else if k < 14 then rs2.getLsbD (k - 9)
    else if k < 19 then rs1.getLsbD (k - 14) else if k < 24 then rd.getLsbD (k - 19)
    else if k < 32 then op.getLsbD (k - 24) else false := by
  simp only [packWord, BitVec.getLsbD_or, BitVec.getLsbD_shiftLeft, BitVec.getLsbD_setWidth]
  by_cases h9 : k < 9
  · have : k < 32 ∧ k < 24 ∧ k < 19 ∧ k < 14 := by omega
    simp [h9, this]
  by_cases h14 : k < 14
  · have h : k < 32 ∧ k < 24 ∧ k < 19 ∧ k - 9 < 32 := by omega
    simp [h9, h14, h, BitVec.getLsbD_of_ge imm k (by omega)]
  by_cases h19 : k < 19
  · have h : k < 32 ∧ k < 24 ∧ k - 14 < 32 := by omega
    simp [h9, h14, h19, h, BitVec.getLsbD_of_ge imm k (by omega),
      BitVec.getLsbD_of_ge rs2 (k - 9) (by omega)]
  by_cases h24 : k < 24
  · have h : k < 32 ∧ k - 19 < 32 := by omega
    simp [h9, h14, h19, h24, h, BitVec.getLsbD_of_ge imm k (by omega),
      BitVec.getLsbD_of_ge rs2 (k - 9) (by omega), BitVec.getLsbD_of_ge rs1 (k - 14) (by omega)]
  by_cases h32 : k < 32
  · have h : k - 24 < 32 := by omega
    simp [h9, h14, h19, h24, h32, h, BitVec.getLsbD_of_ge imm k (by omega),
      BitVec.getLsbD_of_ge rs2 (k - 9) (by omega), BitVec.getLsbD_of_ge rs1 (k - 14) (by omega),
      BitVec.getLsbD_of_ge rd (k - 19) (by omega)]
  · simp [h9, h14, h19, h24, h32]

theorem op_packWord : (packWord op rd rs1 rs2 imm).extractLsb' 24 8 = op := by
  ext i hi
  have h : ¬ 24 + i < 9 ∧ ¬ 24 + i < 14 ∧ ¬ 24 + i < 19 ∧ ¬ 24 + i < 24 ∧ 24 + i < 32 := by omega
  rw [BitVec.getElem_extractLsb', getLsbD_packWord]
  simp [h, BitVec.getLsbD_eq_getElem hi]

theorem rd_packWord : (packWord op rd rs1 rs2 imm).extractLsb' 19 5 = rd := by
  ext i hi
  have h : ¬ 19 + i < 9 ∧ ¬ 19 + i < 14 ∧ ¬ 19 + i < 19 ∧ 19 + i < 24 := by omega
  rw [BitVec.getElem_extractLsb', getLsbD_packWord]
  simp [h, BitVec.getLsbD_eq_getElem hi]

theorem rs1_packWord : (packWord op rd rs1 rs2 imm).extractLsb' 14 5 = rs1 := by
  ext i hi
  have h : ¬ 14 + i < 9 ∧ ¬ 14 + i < 14 ∧ 14 + i < 19 := by omega
  rw [BitVec.getElem_extractLsb', getLsbD_packWord]
  simp [h, BitVec.getLsbD_eq_getElem hi]

theorem rs2_packWord : (packWord op rd rs1 rs2 imm).extractLsb' 9 5 = rs2 := by
  ext i hi
  have h : ¬ 9 + i < 9 ∧ 9 + i < 14 := by omega
  rw [BitVec.getElem_extractLsb', getLsbD_packWord]
  simp [h, BitVec.getLsbD_eq_getElem hi]

theorem imm_packWord : (packWord op rd rs1 rs2 imm).extractLsb' 0 9 = imm := by
  ext i hi
  rw [BitVec.getElem_extractLsb', getLsbD_packWord]
  simp [hi]

end

/-- A register index is its own 5-bit field (R93). -/
@[simp] theorem toNat_regField (r : RegIdx) : (regField r).toNat = r.val := by
  simp [regField]

theorem fieldRd_packWord (op : BitVec 8) (r : RegIdx) (rs1 rs2 : BitVec 5) (imm : BitVec 9) :
    fieldRd (packWord op (regField r) rs1 rs2 imm) = r := by
  apply Fin.ext; simp [fieldRd, rd_packWord]

theorem fieldRs1_packWord (op : BitVec 8) (r : RegIdx) (rd rs2 : BitVec 5) (imm : BitVec 9) :
    fieldRs1 (packWord op rd (regField r) rs2 imm) = r := by
  apply Fin.ext; simp [fieldRs1, rs1_packWord]

theorem fieldRs2_packWord (op : BitVec 8) (r : RegIdx) (rd rs1 : BitVec 5) (imm : BitVec 9) :
    fieldRs2 (packWord op rd rs1 (regField r) imm) = r := by
  apply Fin.ext; simp [fieldRs2, rs2_packWord]

end Sys2Proof
end

