-- ==== Sys2Proof/Laws/Gf.lean ====
section
/-! SUPPORT. The carry-less multiplier and the reduction are linear over xor in each argument
(R120, R127). -/

namespace Sys2Proof.Machine

/-- Regrouping a sum of sums. -/
theorem xor_regroup (a b c d : Block) : (a ^^^ b) ^^^ (c ^^^ d) = (a ^^^ c) ^^^ (b ^^^ d) := by
  ac_rfl

@[simp] theorem loHalf_xor (a b : Block) : loHalf (a ^^^ b) = loHalf a ^^^ loHalf b := by
  ext i hi; simp [loHalf]

@[simp] theorem hiHalf_xor (a b : Block) : hiHalf (a ^^^ b) = hiHalf a ^^^ hiHalf b := by
  ext i hi; simp [hiHalf]

@[simp] theorem swap64_xor (a b : Block) : swap64 (a ^^^ b) = swap64 a ^^^ swap64 b := by
  simp only [swap64, loHalf_xor, hiHalf_xor]
  ext i hi
  simp only [BitVec.getElem_append, BitVec.getElem_xor]
  split <;> simp

theorem clmulBits_xor_left (a a' b : Half) (n : Nat) :
    clmulBits (a ^^^ a') b n = clmulBits a b n ^^^ clmulBits a' b n := by
  induction n with
  | zero => simp [clmulBits]
  | succ n ih =>
    simp only [clmulBits, ih, BitVec.getLsbD_xor]
    cases a.getLsbD n <;> cases a'.getLsbD n <;> simp
    · ac_rfl
    · ac_rfl
    · rw [show ∀ x y z : Block, x ^^^ z ^^^ (y ^^^ z) = x ^^^ y ^^^ (z ^^^ z) by intros; ac_rfl]
      simp

theorem clmulBits_xor_right (a b b' : Half) (n : Nat) :
    clmulBits a (b ^^^ b') n = clmulBits a b n ^^^ clmulBits a b' n := by
  induction n with
  | zero => simp [clmulBits]
  | succ n ih =>
    simp only [clmulBits, ih]
    cases a.getLsbD n
    · simp
    · have : (b ^^^ b').setWidth 128 <<< n = (b.setWidth 128 <<< n) ^^^ (b'.setWidth 128 <<< n : Block) := by
        ext i hi; simp; by_cases h : i < n <;> simp [h]
      simp only [if_true, this]
      ac_rfl

/-- `clmul64(a xor a', b) = clmul64(a, b) xor clmul64(a', b)` (R120). -/
theorem clmul64_xor_left (a a' b : Half) : clmul64 (a ^^^ a') b = clmul64 a b ^^^ clmul64 a' b :=
  clmulBits_xor_left a a' b 64

/-- The same in the second argument (R120). -/
theorem clmul64_xor_right (a b b' : Half) : clmul64 a (b ^^^ b') = clmul64 a b ^^^ clmul64 a b' :=
  clmulBits_xor_right a b b' 64

theorem clmulMid_xor_left (a a' b : Block) :
    clmulMid (a ^^^ a') b = clmulMid a b ^^^ clmulMid a' b := by
  rw [clmulMid, clmulMid, clmulMid, loHalf_xor, hiHalf_xor, clmul64_xor_left, clmul64_xor_left]
  exact xor_regroup _ _ _ _

theorem clmulLow_xor_left (a a' b : Block) :
    clmulLow (a ^^^ a') b = clmulLow a b ^^^ clmulLow a' b := by
  rw [clmulLow, clmulLow, clmulLow, loHalf_xor, clmul64_xor_left, clmulMid_xor_left,
    BitVec.shiftLeft_xor_distrib]
  exact xor_regroup _ _ _ _

theorem clmulHigh_xor_left (a a' b : Block) :
    clmulHigh (a ^^^ a') b = clmulHigh a b ^^^ clmulHigh a' b := by
  rw [clmulHigh, clmulHigh, clmulHigh, hiHalf_xor, clmul64_xor_left, clmulMid_xor_left,
    BitVec.ushiftRight_xor_distrib]
  exact xor_regroup _ _ _ _

/-- One round of the reduction is linear (R127). -/
theorem reduceRound_xor (a b : Block) : reduceRound (a ^^^ b) = reduceRound a ^^^ reduceRound b := by
  rw [reduceRound, reduceRound, reduceRound, swap64_xor, loHalf_xor, clmul64_xor_left]
  exact xor_regroup _ _ _ _

end Sys2Proof.Machine
end

