-- ==== Sys2Proof/Laws/PerInstr.lean ====
section
/-! SUPPORT. Statements about every instruction as syntax, one lemma per constructor. -/

namespace Sys2Proof.Laws.OpField

/-- The operation code of each command (30_encoding.md R95). -/
def opOf : Instr → BitVec 8
  | .bxor _ _ _ => 0x01#8
  | .clmul _ _ _ _ => 0x02#8
  | .clmulw _ _ => 0x03#8
  | .clmac _ _ => 0x04#8
  | .gfred _ => 0x05#8
  | .gfmul _ _ _ => 0x06#8
  | .bldtbl _ => 0x10#8
  | .foldh => 0x20#8
  | .foldb _ => 0x21#8
  | .aesenc _ _ _ => 0x30#8
  | .aesenclast _ _ _ => 0x31#8
  | .aesblk _ _ => 0x32#8
  | .ctrinc _ => 0x40#8
  | .ctrenc => 0x41#8
  | .ctrdec => 0x42#8

/-- Bits 31:24 of a command's word are its operation code (R90, R95). -/
def Statement (i : Instr) : Prop := (encode i).extractLsb' 24 8 = opOf i

theorem bxor (rd rs1 rs2 : RegIdx) : Statement (.bxor rd rs1 rs2) := op_packWord _ _ _ _ _
theorem clmul (rd rs1 rs2 : RegIdx) (sel : BitVec 2) : Statement (.clmul rd rs1 rs2 sel) :=
  op_packWord _ _ _ _ _
theorem clmulw (rs1 rs2 : RegIdx) : Statement (.clmulw rs1 rs2) := op_packWord _ _ _ _ _
theorem clmac (rs1 rs2 : RegIdx) : Statement (.clmac rs1 rs2) := op_packWord _ _ _ _ _
theorem gfred (rd : RegIdx) : Statement (.gfred rd) := op_packWord _ _ _ _ _
theorem gfmul (rd rs1 rs2 : RegIdx) : Statement (.gfmul rd rs1 rs2) := op_packWord _ _ _ _ _
theorem bldtbl (n : Nat) : Statement (.bldtbl n) := op_packWord _ _ _ _ _
theorem foldh : Statement .foldh := op_packWord _ _ _ _ _
theorem foldb (w : Nat) : Statement (.foldb w) := op_packWord _ _ _ _ _
theorem aesenc (rd rs1 rs2 : RegIdx) : Statement (.aesenc rd rs1 rs2) := op_packWord _ _ _ _ _
theorem aesenclast (rd rs1 rs2 : RegIdx) : Statement (.aesenclast rd rs1 rs2) :=
  op_packWord _ _ _ _ _
theorem aesblk (rd rs1 : RegIdx) : Statement (.aesblk rd rs1) := op_packWord _ _ _ _ _
theorem ctrinc (k : Nat) : Statement (.ctrinc k) := op_packWord _ _ _ _ _
theorem ctrenc : Statement .ctrenc := op_packWord _ _ _ _ _
theorem ctrdec : Statement .ctrdec := op_packWord _ _ _ _ _

end Sys2Proof.Laws.OpField
end

