-- ==== Sys2Proof/Tests/Slice0.lean ====
section
/-! SUPPORT. Tests: what WellFormed refuses, words written out from the spec's encodings, known answers
of 95_test_vectors.md, and for every statement with hypotheses a state and operands that meet them. -/

namespace Sys2Proof.Tests

open Sys2Proof Sys2Proof.Machine

-- One test after the other: each evaluation in the kernel that waits would hold a thread and its stack.
set_option Elab.async false

/-! ## Helpers -/

/-- Every register valid, those listed with a value. -/
def allValid (regs : List (RegIdx × Block)) : State :=
  { regs.foldl (fun s p => s.setReg p.1 p.2) State.reset with xv := Vector.replicate 32 0xF#4 }

/-- The outcome is a next state that passes the test. -/
def ends (o : Host.Outcome State Fault Refusal) (p : State → Bool) : Bool :=
  match o with
  | .next t => p t
  | .fault _ => false
  | .refused _ => false

/-- The command runs without a fault and leaves the value in the register. -/
def leaves (i : Instr) (s : State) (r : RegIdx) (v : Block) : Bool :=
  ends (exec i s) (fun t => !t.err && t.valid r && t.reg r == v)

/-- One write of `CMD` ends with that `STATUS` and `FCMD`. -/
def statusAfter (s : State) (w : Word) (status fcmd : Word) : Bool :=
  ends (step { s with pending := [.portWrite 128 w] })
    (fun t => t.statusWord == status && t.fcmd == fcmd)

/-- Bytes stored from an address on. -/
def stored (a : Nat) (bs : List Byte) : Memory := Memory.writeBytes [] a bs

/-- `BUF[:n]` of 95_test_vectors.md. -/
def buf (n : Nat) : List Byte := (List.range n).map (fun i => BitVec.ofNat 8 (7 * i + 3))

/-- `A`, `Hk` and `CTR0` of 95_test_vectors.md. -/
def valA : Block := 0x0f0e0d0c0b0a09080706050403020100#128
def valHk : Block := 0x7b754bba26f8311d7642925847936225#128
def valTag : Block := 0x0c0b0a998877665544332211fffffffe#128

/-- The AES-128 schedule V-A1, last byte of each key first. -/
def schedule128 : List Block :=
  [0x0f0e0d0c0b0a09080706050403020100, 0xfe76abd6f178a6dafa72afd2fd74aad6,
   0xfeb3306800c59bbef1bd3d640bcf92b6, 0x41bf6904bf0c596cbfc9c2d24e74ffb6,
   0xfd8d05fdbc326cf9033e3595bcf7f747, 0xaa22f6ad57aff350eb9d9fa9e8a3aa3c] ++
  [0x6b1fa30ac13d55a79692a6f77d0f395e, 0x26c0a94e4ddf0a448ce25fe31a70f914,
   0xd27abfaef4ba16e0b9651ca435874347, 0x4e972cbe9ced9310685785f0d1329954,
   0xc5302b4d8ba707f3174a94e37f1d1113]

/-- `RK[0..10]` as pairs. -/
def keys128 : List (RegIdx × Block) :=
  schedule128.zipIdx.map (fun p => (Reg.rk p.2, p.1))

/-! ## WellFormed refuses what the encoding cannot express (R92) -/

theorem test_wf_bldtbl_zero : (Instr.bldtbl 0).wellFormed = false := by decide
theorem test_wf_bldtbl_nine : (Instr.bldtbl 9).wellFormed = false := by decide
theorem test_wf_foldb_zero : (Instr.foldb 0).wellFormed = false := by decide
theorem test_wf_foldb_nine : (Instr.foldb 9).wellFormed = false := by decide
theorem test_wf_ctrinc_512 : (Instr.ctrinc 512).wellFormed = false := by decide

/-! ## Words written out bit by bit (R90, R95): op, rd, rs1, rs2, imm -/

theorem test_decode_bxor :
    decode 0b00000001_11011_11001_01000_000000000#32 = .ok (.bxor 27 25 8) := by decide
theorem test_decode_clmul :
    decode 0b00000010_11101_11011_11100_000000001#32 = .ok (.clmul 29 27 28 1#2) := by decide
theorem test_decode_clmulw :
    decode 0b00000011_00000_11011_11100_000000000#32 = .ok (.clmulw 27 28) := by decide
theorem test_decode_clmac :
    decode 0b00000100_00000_10111_00001_000000000#32 = .ok (.clmac 23 1) := by decide
theorem test_decode_gfred :
    decode 0b00000101_11101_00000_00000_000000000#32 = .ok (.gfred 29) := by decide
theorem test_decode_gfmul :
    decode 0b00000110_11101_11011_11100_000000000#32 = .ok (.gfmul 29 27 28) := by decide
theorem test_decode_bldtbl :
    decode 0b00010000_00000_00000_00000_000000111#32 = .ok (.bldtbl 8) := by decide
theorem test_decode_foldh :
    decode 0b00100000_00000_00000_00000_000000000#32 = .ok .foldh := by decide
theorem test_decode_foldb :
    decode 0b00100001_00000_00000_00000_000000000#32 = .ok (.foldb 1) := by decide
theorem test_decode_aesenc :
    decode 0b00110000_11011_11100_01001_000000000#32 = .ok (.aesenc 27 28 9) := by decide
theorem test_decode_aesenclast :
    decode 0b00110001_11011_11100_10010_000000000#32 = .ok (.aesenclast 27 28 18) := by decide
theorem test_decode_aesblk :
    decode 0b00110010_11100_11001_00000_000000000#32 = .ok (.aesblk 28 25) := by decide
theorem test_decode_ctrinc :
    decode 0b01000000_00000_00000_00000_100000110#32 = .ok (.ctrinc 262) := by decide
theorem test_decode_ctrenc :
    decode 0b01000001_00000_00000_00000_000000000#32 = .ok .ctrenc := by decide
theorem test_decode_ctrdec :
    decode 0b01000010_00000_00000_00000_000000000#32 = .ok .ctrdec := by decide

/-- The illegal words of 95_test_vectors.md section 2.7. -/
theorem test_decode_illegal :
    ([0x00000000#32, 0xFFFFFFFF#32, 0x07000000#32].all
      (fun w => decode w matches .error .reservedOp) &&
    [0x03080000#32, 0x02000004#32, 0x20000001#32, 0x10000008#32, 0x41000001#32, 0x32E64200#32,
      0x05E84000#32].all (fun w => decode w matches .error .unusedField)) = true := by decide +kernel

/-! ## Known answers (95_test_vectors.md) -/

theorem test_bxor : leaves (.bxor 29 27 28) (allValid [(27, valA), (28, valHk)]) 29
    0x747b46b62df238157144975c44916325#128 = true := by decide +kernel
/-- Section 2.1, `sel = 1`: the high half of `A`, the low half of `Hk`. -/
theorem test_clmul_sel1 : leaves (.clmul 29 27 28 1#2) (allValid [(27, valA), (28, valHk)]) 29
    0x02f35ce98085607b9149950fa68a1c28#128 = true := by decide +kernel
theorem test_clmul_sel2 : leaves (.clmul 29 27 28 2#2) (allValid [(27, valA), (28, valHk)]) 29
    0x0161505ad2512b9f5a0f52f1bd0b1d00#128 = true := by decide +kernel
theorem test_clmulw_low : leaves (.clmulw 27 28) (allValid [(27, valA), (28, valHk)]) 30
    0xca043e206ecd3310f9935b5338282500#128 = true := by decide +kernel
theorem test_clmulw_high : leaves (.clmulw 27 28) (allValid [(27, valA), (28, valHk)]) 31
    0x02b922752c98231f322d4405797e360c#128 = true := by decide +kernel
theorem test_clmac_high : leaves (.clmac 23 23) (allValid [(23, valHk),
    (30, 0xca043e206ecd3310f9935b5338282500#128), (31, 0x02b922752c98231f322d4405797e360c#128)]) 31
    0x17fc37643cdd665b363911457c7f375d#128 = true := by decide +kernel
theorem test_gfred : leaves (.gfred 29) (allValid [(30, 0xca043e206ecd3310f9935b5338282500#128),
    (31, 0x02b922752c98231f322d4405797e360c#128)]) 29
    0x9eaa04b12e5d5f25a8e0429db5385886#128 = true := by decide +kernel
/-- Program P1: the destination is a source. -/
theorem test_gfmul_in_place : leaves (.gfmul 27 27 28) (allValid [(27, valA), (28, valHk)]) 27
    0x9eaa04b12e5d5f25a8e0429db5385886#128 = true := by decide +kernel
/-- V-T1. -/
theorem test_bldtbl_8 : leaves (.bldtbl 8) (State.reset.setReg 23 valHk) 7
    0xfcc250a53c16e52bec3b091a65e4e538#128 = true := by decide +kernel
/-- V-T2: the entries beyond `n` are invalid. -/
theorem test_bldtbl_2_valid : ends (exec (.bldtbl 2) (allValid [(23, valHk)]))
    (fun t => t.validWord == 0xFFFFFF03#32) = true := by decide +kernel
/-- V-H3: a padded tail. -/
theorem test_foldh_15 : leaves .foldh { allValid [(23, valHk)] with
    src := 0x1000#32, len := 15#32, mem := stored 0x1000 (buf 15) } 24
    0xa74651ad32a8c102f27db65f78a7639a#128 = true := by decide +kernel
/-- V-B3: one full group of three. -/
theorem test_foldb_3 : leaves (.foldb 3) { allValid [(0, valHk),
      (1, 0xa5f02136690050d6982ece04d42e0e44#128), (2, 0x8e483d2790a6c2800057c13b363ae95a#128)] with
    src := 0x1000#32, len := 48#32, mem := stored 0x1000 (buf 48) } 24
    0x07552436be819b9f9a12ceb6fd5ffc2b#128 = true := by decide +kernel
/-- V-A4, in memory order `6a6a5c45 2c6d3351 b0d95d61 279c215c`. -/
theorem test_aesenc : leaves (.aesenc 27 27 28) (allValid [(27, valA)]) 27
    0x5c219c27615dd9b051336d2c455c6a6a#128 = true := by decide +kernel
/-- V-A4, in memory order `636b6776 f201ab7b 30d777c5 fe7c6f2b`. -/
theorem test_aesenclast : leaves (.aesenclast 27 27 28) (allValid [(27, valA)]) 27
    0x2b6f7cfec577d7307bab01f276676b63#128 = true := by decide +kernel
/-- V-K3. -/
theorem test_aesblk_128 : leaves (.aesblk 28 29)
    (allValid ((29, 0xffeeddccbbaa99887766554433221100#128) :: keys128)) 28
    0x5ac5b47080b7cdd830047b6ad8e0c469#128 = true := by decide +kernel
/-- V-A5: fifteen round keys are needed when `CFG.KS = 1`. -/
theorem test_aesblk_256_uninit : statusAfter { keys128.foldl (fun s p => s.setReg p.1 p.2)
      (State.reset.setReg 29 valA) with ks := true } 0x32E74000#32 0x201#32 0x32E74000#32 = true := by
  decide +kernel
/-- V-S1: no carry leaves lane 0. -/
theorem test_ctrinc_wrap : leaves (.ctrinc 1)
    (allValid [(25, 0x8c0b0a998877665544332211ffffffff#128)]) 25
    0x8c0b0a99887766554433221100000000#128 = true := by decide +kernel

/-- The set-up of V-C1 to V-C11 for `BUF[:n]`, one table entry. -/
def codecState (n : Nat) : State :=
  { allValid ([(0, valHk), (26, valTag)] ++ keys128) with
    src := 0x1000#32, dst := 0x2000#32, len := BitVec.ofNat 32 n, mem := stored 0x1000 (buf n) }

/-- V-C5: one full block, one tail byte; the counter has advanced once. -/
theorem test_ctrenc_17 : ends (exec .ctrenc (codecState 17)) (fun t =>
    t.reg 24 == 0xc70cccebce8e34ce3f187d0c5f58e43e#128 &&
    t.reg 25 == 0x8c0b0a998877665544332211ffffffff#128 &&
    t.mem.read 0x2000 == 0xd2#8 && t.mem.read 0x2010 == 0xa9#8 && t.mem.read 0x2011 == 0#8) = true := by
  decide +kernel
/-- V-C11: the input is folded, the bytes are those of the encryption. -/
theorem test_ctrdec_20 : ends (exec .ctrdec (codecState 20)) (fun t =>
    t.reg 24 == 0xc04c3021b13e679316f7a1241c507857#128 &&
    t.mem.read 0x200F == 0x19#8 && t.mem.read 0x2013 == 0x28#8) = true := by decide +kernel
/-- V-C7: one super-block of six. -/
theorem test_ctrenc_96 : leaves .ctrenc
    { codecState 96 with x := (allValid ([(0, valHk), (1, 0xa5f02136690050d6982ece04d42e0e44#128),
        (2, 0x8e483d2790a6c2800057c13b363ae95a#128), (3, 0x0d63d263c0caad08593f2763b96be528#128),
        (4, 0xb3aa9eaf8fe68a11d6984b30cd82afdb#128), (5, 0xaf440db883f0c0a90dd16aa9b3dd1f95#128),
        (26, valTag)] ++ keys128)).x } 24
    0xbab938b105ca2a236451ea179927cb00#128 = true := by decide +kernel

/-! ## Faults (95_test_vectors.md section 2.7) -/

theorem test_fault_uninit : statusAfter (State.reset.setReg 27 valA) 0x06EEF800#32
    0x201#32 0x06EEF800#32 = true := by decide +kernel
theorem test_fault_range_before_overlap : statusAfter
    { allValid [] with src := 0xFFFFFFF8#32, dst := 0xFFFFFFF8#32, len := 16#32 } 0x41000000#32
    0x301#32 0x41000000#32 = true := by decide +kernel
theorem test_fault_overlap_before_bus : statusAfter
    { allValid [] with src := 0x1000#32, dst := 0x1008#32, len := 16#32, readable := [] }
    0x41000000#32 0x401#32 0x41000000#32 = true := by decide +kernel
theorem test_fault_bus : statusAfter
    { allValid [] with src := 0x1FF8#32, len := 16#32, readable := [⟨0x1000, 0x1000⟩] }
    0x20000000#32 0x501#32 0x20000000#32 = true := by decide +kernel
theorem test_fault_illegal_before_uninit : statusAfter State.reset 0x41000001#32
    0x101#32 0x41000001#32 = true := by decide +kernel
/-- V-F22: no fault although nothing is valid. -/
theorem test_foldh_len0 : ends (exec .foldh State.reset) (fun t => decide (t = State.reset)) = true := by
  decide +kernel

/-! ## The port -/

/-- Section 2.8: after three lane writes the register is not valid, after the fourth it is. -/
theorem test_lane_writes : ends (Host.Core.run Sys2Proof.core 3 { State.reset with pending :=
      [.portWrite 92 0x47936225#32, .portWrite 93 0x76429258#32, .portWrite 94 0x26f8311d#32] })
    (fun t => t.validWord == 0#32 && ends (step { t with pending := [.portWrite 95 0x7b754bba#32] })
      (fun u => u.validWord == 0x00800000#32 && u.reg 23 == valHk)) = true := by decide +kernel
theorem test_cfg_keeps_bit0 : ends (step { State.reset with pending :=
    [.portWrite 130 0xFFFFFFFF#32] }) (fun t => t.cfgWord == 1#32) = true := by decide +kernel
theorem test_soft_reset_keeps_memory : ends (step { allValid [(23, valHk)] with
      err := true, mem := [(5, 7#8)], pending := [.portWrite 135 1#32] })
    (fun t => !t.err && t.validWord == 0#32 && t.mem.read 5 == 7#8) = true := by decide +kernel
theorem test_fetch_word : ends (step ((allValid [(27, valA), (28, valHk)]).withFetchWord 32 0x01EEF800))
    (fun t => t.reg 29 == 0x747b46b62df238157144975c44916325#128 && t.lastcmd == 0x01EEF800#32) =
    true := by decide +kernel

/-! ## Witnesses: the hypotheses of each statement can be met -/

theorem inRegions_whole {a : Nat} (h : a < 4294967296) :
    InRegions [⟨0, Config.addrSpace⟩] a :=
  ⟨⟨0, Config.addrSpace⟩, by simp, by simp, by simpa using h⟩

/-- Every register valid, the input of `n` bytes ending at the top of the address space. -/
def topState (n : Nat) : State :=
  { State.reset with
    xv := Vector.replicate 32 0xF#4, src := BitVec.ofNat 32 (4294967296 - n), len := BitVec.ofNat 32 n }

theorem topState_usable {n : Nat} (h1 : 0 < n) (h2 : n < 4294967296) : InputUsable (topState n) := by
  have hs : (topState n).src.toNat = 4294967296 - n := by
    simp only [topState, BitVec.toNat_ofNat]; omega
  have hl : (topState n).len.toNat = n := by simp only [topState, BitVec.toNat_ofNat]; omega
  refine ⟨by omega, fun k hk => ?_⟩
  exact inRegions_whole (by omega)

theorem topState_valid (n : Nat) (r : RegIdx) : (topState n).xv[r] = 0xF#4 := by
  simp [topState]

/-- Every register valid, two buffers of `n` bytes apart, the output at the top of the address space. -/
def readyState (n : Nat) (ks : Bool) (mem : Memory) : State :=
  { topState n with
    src := 0#32, dst := BitVec.ofNat 32 (4294967296 - n), ks := ks, mem := mem }

theorem readyState_ready {n : Nat} (h1 : 0 < n) (h2 : n ≤ 4096) (ks : Bool) (mem : Memory) :
    CodecReady (readyState n ks mem) := by
  have hd : (readyState n ks mem).dst.toNat = 4294967296 - n := by
    simp only [readyState, BitVec.toNat_ofNat]; omega
  have hl : (readyState n ks mem).len.toNat = n := by
    simp only [readyState, topState, BitVec.toNat_ofNat]; omega
  have hs : (readyState n ks mem).src.toNat = 0 := rfl
  have hv : ∀ rs, AllValid (readyState n ks mem) rs := fun rs r _ => topState_valid n r
  refine ⟨⟨hv _, fun _ => ⟨hv _, hv _⟩, fun _ => hv _, fun _ => hv _⟩, ⟨by omega, ?_⟩,
    ⟨by omega, ?_⟩, ?_⟩
  · intro k hk; exact inRegions_whole (by omega)
  · intro k hk; exact inRegions_whole (by omega)
  · rintro ⟨a, h3, h4⟩; omega

theorem readyState_len {n : Nat} (h1 : 0 < n) (h2 : n ≤ 4096) (ks : Bool) (mem : Memory) :
    (readyState n ks mem).len ≠ 0#32 := by
  intro h
  have := congrArg BitVec.toNat h
  simp only [readyState, topState, BitVec.toNat_ofNat] at this
  omega

theorem witness_DecodeInvertsEncode :
    [Instr.bxor 31 0 31, .clmul 0 31 1 3#2, .clmulw 31 0, .clmac 0 31, .gfred 31, .gfmul 31 31 0,
      .bldtbl 1, .bldtbl 8, .foldh, .foldb 1, .foldb 8, .aesenc 0 0 31, .aesenclast 31 0 0,
      .aesblk 31 0, .ctrinc 0, .ctrinc 511, .ctrenc, .ctrdec].all Instr.wellFormed = true := by decide

theorem witness_EncodeInvertsDecode : decode 0x400001FF#32 = .ok (.ctrinc 511) := by decide

/-- A row selected, and a word that selects none. -/
theorem witness_RowsSelectAtMostOneCommand :
    0x400001FF#32 &&& 0xFFFFFE00#32 = 0x40000000#32 ∧
      decode 0x40000200#32 = .error .unusedField := by decide

/-- `ERR = 0` and a word of each illegal kind. -/
theorem witness_IllegalWordsLatchIllegal :
    State.reset.err = false ∧ decode 0x07000000#32 = .error .reservedOp ∧
    decode 0x20000001#32 = .error .unusedField := by decide

theorem witness_StepRunsTheDecodedCommand :
    (State.reset.withFetchWord 32 0x20000000).pending = .portWrite 128 0x20000000#32 :: [] ∧
    (State.reset.withFetchWord 32 0x20000000).err = false ∧
    decode 0x20000000#32 = .ok .foldh := by decide

theorem witness_StepTakesTheNextAction :
    (codecState 17).pending = [] ∧
    (State.reset.withFetchWord 32 0x20000000).pending = .portWrite 128 0x20000000#32 :: [] := by
  decide +kernel

/-- A faulted state with a valid register, listed memory and an action left. -/
def faultedState : State :=
  { State.reset.setReg 31 valA with
    err := true, cause := .bus, fcmd := 0x20000000#32, lastcmd := 0x20000000#32,
    mem := [(0, 1#8), (4294967295, 255#8)], pending := [.portWrite 135 1#32] }

theorem witness_StepKeepsInv : Inv faultedState ∧ ∃ t, step faultedState = .next t := by
  refine ⟨⟨by decide, by decide, by decide, by decide, ?_⟩, ?_⟩
  · decide +kernel
  · exact ⟨_, rfl⟩

/-- The clauses: an ignored write, a `CTRL` write that does not reset, a read, the soft reset, and the
end of the fault by a hard reset. -/
theorem witness_FrozenUntilReset :
    faultedState.err = true ∧ (0#32).getLsbD 0 = false ∧ (1#32).getLsbD 0 = true ∧
    (134 : PortSlot) ≠ 135 ∧ (136 : PortSlot) ≠ 135 ∧
    ends (perform (.portWrite 135 0#32) faultedState) (fun t => t.err) = true ∧
    ends (perform (.portRead 136) faultedState) (fun t => t.err) = true ∧
    ends (perform (.portWrite 135 1#32) faultedState) (fun t => !t.err) = true ∧
    ends (perform .hardReset faultedState) (fun t => !t.err) = true := by
  decide +kernel

theorem witness_ResetValues : (0xFFFFFFFF#32).getLsbD 0 = true := by decide

/-- A reset that finds a codec command past its checks, one during a command that faults, one during a
command without output, one while `ERR = 1`. -/
theorem witness_MidCommandResetOpensOnlyTheOutput :
    Memory.wf [(0, 1#8), (4294967295, 255#8)] ∧
    CodecReady (readyState 96 true [(0, 1#8)]) ∧ decode 0x41000000#32 = .ok .ctrenc ∧
    decode 0x20000000#32 = .ok .foldh ∧ ¬ CodecReady State.reset ∧
    faultedState.mem.wf ∧ faultedState.err = true :=
  ⟨by decide, readyState_ready (by decide) (by decide) _ _, by decide, by decide,
    fun h => absurd (h.1.1 26 (by simp)) (by decide), by decide, by decide⟩

/-- The first and last slot of each clause of `PortReadsReturn`. -/
theorem witness_PortReadsReturn :
    (0 : PortSlot).val = 4 * (0 : RegIdx).val + (0 : Fin 4).val ∧
    (127 : PortSlot).val = 4 * (31 : RegIdx).val + (3 : Fin 4).val ∧
    136 < (137 : PortSlot).val ∧ 136 < (1023 : PortSlot).val ∧
    [(128 : PortSlot), 129, 130, 131, 132, 133, 134, 135, 136].map Fin.val =
      [128, 129, 130, 131, 132, 133, 134, 135, 136] := by decide

theorem witness_LaneWriteSetsLaneAndValidBit :
    (127 : PortSlot).val = 4 * (31 : RegIdx).val + (3 : Fin 4).val ∧ State.reset.err = false ∧
    { State.reset with pending := [.portWrite 127 1#32] }.pending = .portWrite 127 1#32 :: [] := by
  decide

theorem witness_FourLaneWritesMakeABlock :
    ([3, 1, 0, 2] : List (Fin 4)).Perm [0, 1, 2, 3] ∧ State.reset.err = false ∧
    ([3, 1, 0, 2] : List (Fin 4)).map (fun j => HostAction.portWrite
      (Fin.ofNat 1024 (4 * (31 : RegIdx).val + j.val)) (valA.extractLsb' (32 * j.val) 32)) =
    [.portWrite 127 0x0f0e0d0c#32, .portWrite 125 0x07060504#32, .portWrite 124 0x03020100#32,
      .portWrite 126 0x0b0a0908#32] := by decide

/-- The clauses: `CFG`, `SRC`, `DST`, `LEN`, and the ignored writes at both ends of their ranges. -/
theorem witness_ControlRegisterWrites :
    State.reset.err = false ∧ ((135 : PortSlot) = 135 ∧ (2#32).getLsbD 0 = false) ∧
    136 ≤ (136 : PortSlot).val ∧ 136 ≤ (1023 : PortSlot).val ∧
    [(129 : PortSlot), 130, 131, 132, 133, 134].map Fin.val = [129, 130, 131, 132, 133, 134] := by decide

theorem witness_MemReadReturnsWhatMemWriteStored :
    Memory.wf [(0, 1#8), (4294967295, 255#8)] ∧ (1 ≤ 1 ∧ 1 ≤ 16) ∧ (1 ≤ 16 ∧ 16 ≤ 16) ∧
    ¬ (16 ≤ 15 ∧ 15 < 16 + 16) ∧ ¬ (16 ≤ 32 ∧ 32 < 16 + 16) := by decide

/-- The last address. -/
theorem witness_HostMemoryAccesses :
    faultedState.mem.wf ∧
    { faultedState with pending := [.memWrite 0xFFFFFFFF#32 0#8] }.pending =
      .memWrite 0xFFFFFFFF#32 0#8 :: [] ∧
    { faultedState with pending := [.memRead 0xFFFFFFFF#32] }.pending =
      .memRead 0xFFFFFFFF#32 :: [] := by decide

/-- The same memory built in two orders. -/
theorem witness_EqualReadsEqualMemories :
    let m := (Memory.write [] 3 1#8).write 2 5#8
    let m' := ((Memory.write [] 2 5#8).write 3 9#8).write 3 1#8
    m.wf ∧ m'.wf ∧ ∀ a, a < 8 → m.read a = m'.read a := by decide +kernel

/-- The last byte of a tail and the first byte past it. -/
theorem witness_BufferBlocksAreTheBytes :
    1 < (17 + 15) / 16 ∧ 0 < 16 ∧ 16 * 1 + 0 < 17 ∧ ¬ (16 * 1 + 1 < 17) := by decide

/-- A state for each clause: not valid, out of range, meeting, unmapped, and none of these. -/
theorem witness_FirstFailingCheckFaults :
    decode 0x20000001#32 = .error .unusedField ∧ decode 0x40000001#32 = .ok (.ctrinc 1) ∧
    decode 0x20000000#32 = .ok .foldh ∧ decode 0x42000000#32 = .ok .ctrdec ∧
    ¬ AllValid State.reset (validitySet State.reset (.ctrinc 1)) ∧
    firstFailure .foldh { topState 16 with len := 17#32 } = .range ∧
    firstFailure .ctrdec { topState 16 with src := 0x1000#32, dst := 0x100F#32 } = .overlap ∧
    firstFailure .ctrdec { topState 16 with src := 0x1000#32, dst := 0x1010#32, writable := [] } = .bus ∧
    firstFailure .ctrdec { topState 16 with src := 0x1000#32, dst := 0x1010#32 } = .noFault := by
  refine ⟨by decide, by decide, by decide, by decide,
    fun h => absurd (h 25 (by simp [validitySet, Reg.ctr])) (by decide), ?_⟩
  decide +kernel

/-- `ERR = 0`, and a word that faults. -/
theorem witness_CommandFaultsPreciselyOrNotAtAll :
    State.reset.err = false ∧ statusAfter State.reset 0x40000001#32 0x201#32 0x40000001#32 = true := by
  decide +kernel

theorem witness_ValiditySetsAreTheTable :
    State.reset.len = 0#32 ∧ (topState 96).len ≠ 0#32 ∧ (1 ≤ 1 ∧ 1 ≤ 8) ∧ (1 ≤ 8 ∧ 8 ≤ 8) ∧
    decode 0x40000001#32 = .ok (.ctrinc 1) ∧
    (readyState 96 true []).ks = ({ State.reset with ks := true } : State).ks := by decide

/-- Two states with different Blocks and different bytes that agree on the rest. -/
theorem witness_FaultsIgnoreData :
    let s := readyState 17 false []
    let s' := { readyState 17 false [(3, 4#8)] with x := (allValid [(24, valA)]).x }
    s.xv = s'.xv ∧ s.ks = s'.ks ∧ s.src = s'.src ∧ s.dst = s'.dst ∧ s.len = s'.len ∧
    s.readable = s'.readable ∧ s.writable = s'.writable ∧ s.err = false ∧ s'.err = false ∧
    s.mem ≠ s'.mem := by decide +kernel

/-- The register-only commands (BXOR to GFMUL, AESENC, AESENCLAST): their sources are valid. -/
theorem witness_RegisterCommandResults :
    ∀ r : RegIdx, (topState 1).xv[r] = 0xF#4 := fun r => topState_valid 1 r

theorem witness_ClmulBits : 0 < 128 ∧ 127 < 128 := by decide

theorem witness_BldtblResult :
    (1 ≤ 1 ∧ 1 ≤ 8) ∧ (1 ≤ 8 ∧ 8 ≤ 8) ∧ (State.reset.setReg 23 valHk).xv[(23 : RegIdx)] = 0xF#4 ∧
    (1 ≤ (7 : RegIdx).val ∧ (7 : RegIdx).val < 8) ∧ (1 ≤ (1 : RegIdx).val ∧ (1 : RegIdx).val < 8) ∧
    8 ≤ (8 : RegIdx).val := by decide +kernel

/-- An empty buffer with nothing valid, and a buffer of one byte that ends at the top. -/
theorem witness_FoldhResult :
    State.reset.len = 0#32 ∧ (topState 1).len ≠ 0#32 ∧ (topState 1).xv[(24 : RegIdx)] = 0xF#4 ∧
    (topState 1).xv[(23 : RegIdx)] = 0xF#4 ∧ InputUsable (topState 1) :=
  ⟨by decide, by decide, topState_valid 1 24, topState_valid 1 23,
    topState_usable (by decide) (by decide)⟩

theorem witness_FoldbResult :
    State.reset.len = 0#32 ∧ (1 ≤ 1 ∧ 1 ≤ 8) ∧ (1 ≤ 8 ∧ 8 ≤ 8) ∧ (topState 300).len ≠ 0#32 ∧
    (topState 300).xv[(24 : RegIdx)] = 0xF#4 ∧
    (∀ k : RegIdx, k.val < 8 → (topState 300).xv[k] = 0xF#4) ∧ InputUsable (topState 300) :=
  ⟨by decide, by decide, by decide, by decide, topState_valid _ 24, fun k _ => topState_valid _ k,
    topState_usable (by decide) (by decide)⟩

theorem witness_GroupFoldIsHornerSteps :
    ∀ k, k < [valA, valHk].length → hashPower valHk k = hashPower valHk k := fun _ _ => rfl

/-- A table that holds the powers of `H`. -/
def powersState (n : Nat) : State :=
  { topState n with x := Vector.ofFn (fun i =>
      if i.val < 8 then hashPower valHk i.val else if i.val = 23 then valHk else valA) }

theorem witness_BatchedFoldEqualsHornerFold :
    (1 ≤ 8 ∧ 8 ≤ 8) ∧ (powersState 300).xv[(24 : RegIdx)] = 0xF#4 ∧
    (powersState 300).xv[(23 : RegIdx)] = 0xF#4 ∧
    (∀ k : RegIdx, k.val < 8 → (powersState 300).xv[k] = 0xF#4) ∧ InputUsable (powersState 300) ∧
    TableHolds (powersState 300) (powersState 300).x[(23 : RegIdx)] 8 := by
  refine ⟨by decide, topState_valid 300 24, topState_valid 300 23, fun k _ => topState_valid 300 k,
    topState_usable (n := 300) (by decide) (by decide), ?_⟩
  intro k hk
  have e : k % 32 = k := by omega
  simp [powersState, e, hk]

theorem witness_ChunkedHornerFold :
    (48#32).toNat % 16 = 0 ∧ (topState 50).len.toNat = (48#32).toNat + (2#32).toNat ∧
    (topState 50).xv[(24 : RegIdx)] = 0xF#4 ∧ (topState 50).xv[(23 : RegIdx)] = 0xF#4 ∧
    InputUsable (topState 50) :=
  ⟨by decide, by decide, topState_valid _ 24, topState_valid _ 23,
    topState_usable (by decide) (by decide)⟩

theorem witness_SboxIsAffineOfInverse :
    gf256Mul 1#8 1#8 = 1#8 ∧ gf256Mul 0x53#8 0xCA#8 = 1#8 := by decide +kernel

/-- The highest row and column. -/
theorem witness_ShiftRowsRotatesRows : 3 < 4 ∧ 0 < 4 := by decide
theorem witness_MixColumnsMixesColumns : 3 < 4 ∧ 0 < 4 := by decide
theorem witness_RoundsComposeTheirParts : 15 < 16 ∧ 0 < 16 := by decide

/-- The intermediate states exist, for both round counts. -/
theorem witness_EncBlockRunsTheRounds (ks : Bool) :
    let m := { powersState 1 with ks := ks }
    let rk : Nat → Block := fun i => m.x[Fin.ofNat 32 (8 + i)]
    let t : Nat → Block := fun i => encRounds rk (valA ^^^ rk 0) i
    t 0 = valA ^^^ rk 0 ∧
      ∀ i, 1 ≤ i → i < (if m.ks then 14 else 10) → t i = encRound (t (i - 1)) (rk i) := by
  intro m rk t
  refine ⟨rfl, fun i h1 _ => ?_⟩
  obtain ⟨j, rfl⟩ : ∃ j, i = j + 1 := ⟨i - 1, by omega⟩
  rfl

theorem witness_AesblkResult :
    (readyState 1 true []).xv[(31 : RegIdx)] = 0xF#4 ∧
    AllValid (readyState 1 true []) (scheduleRegs (readyState 1 true [])) ∧
    AllValid (readyState 1 false []) (scheduleRegs (readyState 1 false [])) :=
  ⟨topState_valid 1 31, fun r _ => topState_valid 1 r, fun r _ => topState_valid 1 r⟩

theorem witness_CounterAddsInLaneZero : 1 ≤ 3 ∧ 3 < 4 := by decide

theorem witness_CtrincResult :
    511 ≤ 511 ∧ 0 ≤ 511 ∧ (topState 1).xv[(25 : RegIdx)] = 0xF#4 :=
  ⟨by decide, by decide, topState_valid _ 25⟩

/-- Only `TAG` valid, the registers `SRC` and `DST` at the same address. -/
theorem witness_CodecOfNothing :
    (State.reset.setReg 26 valTag).len = 0#32 ∧
    (State.reset.setReg 26 valTag).xv[(26 : RegIdx)] = 0xF#4 := by decide +kernel

/-- One byte; a super-block and a tail. -/
theorem witness_CtrencResult :
    ((readyState 1 false [(0, 1#8)]).mem.wf ∧ CodecReady (readyState 1 false [(0, 1#8)]) ∧
      (readyState 1 false [(0, 1#8)]).len ≠ 0#32) ∧
    ((readyState 97 true [(0, 1#8)]).mem.wf ∧ CodecReady (readyState 97 true [(0, 1#8)]) ∧
      (readyState 97 true [(0, 1#8)]).len ≠ 0#32) :=
  ⟨⟨by decide, readyState_ready (by decide) (by decide) _ _, readyState_len (by decide) (by decide) _ _⟩,
    ⟨by decide, readyState_ready (by decide) (by decide) _ _, readyState_len (by decide) (by decide) _ _⟩⟩

/-- CTRDEC has the hypotheses of CTRENC. -/
theorem witness_CtrdecResult :
    (readyState 96 true [(0, 1#8)]).mem.wf ∧ CodecReady (readyState 96 true [(0, 1#8)]) ∧
    (readyState 96 true [(0, 1#8)]).len ≠ 0#32 :=
  ⟨by decide, readyState_ready (by decide) (by decide) _ _, readyState_len (by decide) (by decide) _ _⟩

theorem witness_CodecAccumulatesTheCiphertext :
    let s := { readyState 97 false [(0, 1#8)] with x := (powersState 97).x }
    s.mem.wf ∧ CodecReady s ∧ s.len ≠ 0#32 ∧
      TableHolds s valHk (if 96 ≤ s.len.toNat then 6 else 1) := by
  refine ⟨by decide, readyState_ready (n := 97) (by decide) (by decide) false [(0, 1#8)],
    readyState_len (n := 97) (by decide) (by decide) false [(0, 1#8)], ?_⟩
  intro k hk
  have h8 : k < 8 := by split at hk <;> omega
  have e : k % 32 = k := by omega
  simp [powersState, e, h8]

/-- The plaintext is put back where it was. -/
theorem witness_DecryptionInvertsEncryption :
    let s := readyState 33 false [(0, 1#8)]
    let p' : Word := 0#32
    s.mem.wf ∧ CodecReady s ∧ p'.toNat + s.len.toNat ≤ 4294967296 ∧
    (∀ k, k < s.len.toNat → InRegions s.readable (s.dst.toNat + k)) ∧
    (∀ k, k < s.len.toNat → InRegions s.writable (p'.toNat + k)) ∧
    ¬ BuffersMeet { s with src := s.dst, dst := p' } := by
  have hd : (readyState 33 false [(0, 1#8)]).dst.toNat = 4294967263 := by decide
  have hl : (readyState 33 false [(0, 1#8)]).len.toNat = 33 := by decide
  refine ⟨by decide, readyState_ready (by decide) (by decide) _ _, by decide, ?_, ?_, ?_⟩
  · intro k hk; exact inRegions_whole (by omega)
  · intro k hk; exact inRegions_whole (by simp; omega)
  · rintro ⟨a, h1, h2⟩
    simp only [hd, hl] at h1 h2
    simp at h2
    omega

/-- A register that no command of the list writes. -/
theorem witness_CommandsWriteOnlyWhatTheyName :
    (26 : RegIdx) ≠ 24 ∧ (26 : RegIdx) ≠ 25 ∧ (26 : RegIdx) ≠ 30 ∧ (26 : RegIdx) ≠ 31 ∧
    8 ≤ (26 : RegIdx).val := by decide

theorem witness_OnlyTheCodecWritesMemory :
    (readyState 1 false [(0, 1#8)]).mem.wf ∧
    ¬ ((readyState 1 false []).dst.toNat ≤ 0 ∧
      0 < (readyState 1 false []).dst.toNat + (readyState 1 false []).len.toNat) ∧
    Instr.foldh ≠ .ctrenc ∧ Instr.foldh ≠ .ctrdec := by decide

/-- Two memories that differ outside the input buffer. -/
theorem witness_OnlyTheInputBufferIsRead :
    let s := readyState 1 false [(0, 1#8)]
    let m : Memory := [(0, 1#8), (1, 2#8)]
    s.mem.wf ∧ m.wf ∧ s.mem ≠ m ∧
    (∀ k, k < s.len.toNat → m.read (s.src.toNat + k) = s.mem.read (s.src.toNat + k)) ∧
    CodecReady s :=
  ⟨by decide, by decide, by decide, by decide, readyState_ready (by decide) (by decide) _ _⟩

/-- A valid bit cleared by BLDTBL and one cleared by a soft reset. -/
theorem witness_ValidBitsClearedOnlyByResetAndBldtbl :
    let s := { topState 1 with pending := [.portWrite 128 0x10000000#32] }
    s.xv[(7 : RegIdx)].getLsbD 3 = true ∧
    ends (step s) (fun t => !t.xv[(7 : RegIdx)].getLsbD 3 && !t.err) = true ∧
    ends (step { s with pending := [.portWrite 135 1#32] })
      (fun t => !t.xv[(7 : RegIdx)].getLsbD 3) = true := by decide +kernel

end Sys2Proof.Tests
end

section
/-! PROOFS. The step itself: it performs the host's next action, a write of `CMD` runs the decoded
command, and every step answers a next state (00_scope.md R15, 10_state.md R30, R32,
60_exceptions.md R241, R243, R257). -/

namespace Sys2Proof.Machine

/-! ### Nothing is refused, and a CORE fault is a next state -/

/-- Both ways out of a command's checks, its effect and its fault, are next states (R241 to R243). -/
theorem exec_answers_next (i : Instr) (s : State) : ∃ t, exec i s = .next t := by
  by_cases h : firstFailure i s = .noFault
  · exact ⟨_, exec_of_noFault h⟩
  · exact ⟨_, exec_of_fault h⟩

theorem issueCommand_answers_next (w : Word) (s : State) : ∃ t, issueCommand w s = .next t := by
  obtain ⟨-, ignored⟩ | ⟨-, _, -, illegal⟩ | ⟨-, i, -, runs⟩ := issueCommand_cases w s
  · exact ⟨_, ignored⟩
  · exact ⟨_, illegal⟩
  · rw [runs]; exact exec_answers_next i _

theorem writePort_answers_next (r : PortReg) (v : Word) (s : State) :
    ∃ t, writePort r v s = .next t := by
  obtain ⟨-, issues⟩ | ⟨-, control⟩ | ⟨-, -, -, ignored⟩ | ⟨-, -, -, written⟩ :=
    writePort_cases r v s
  · rw [issues]; exact issueCommand_answers_next v s
  · exact ⟨_, control⟩
  · exact ⟨_, ignored⟩
  · exact ⟨_, written⟩

theorem perform_answers_next (a : HostAction) (s : State) : ∃ t, perform a s = .next t := by
  cases a with
  | portWrite slot v => exact writePort_answers_next (portReg slot) v s
  | portRead slot => exact ⟨_, rfl⟩
  | memRead x => exact ⟨_, rfl⟩
  | memWrite x v => exact ⟨_, rfl⟩
  | hardReset => exact ⟨_, rfl⟩
  | hardResetDuring w => exact ⟨_, rfl⟩

/-- Settles O8: the host's list is empty and the CORE is idle, or its first action is performed, and
every action answers a next state. -/
theorem everyStepAnswersNext : Obligations.EveryStepAnswersNext := by
  intro s
  cases h : s.pending with
  | nil => exact ⟨s, step_of_idle h⟩
  | cons a rest => rw [step_of_pending h]; exact perform_answers_next a _

/-! ### A step takes the host's next action -/

/-- A write of slot 128 is a write of `CMD` (R40, R41). -/
theorem perform_portWrite_cmd (w : Word) (s : State) :
    perform (.portWrite 128 w) s = issueCommand w s := by
  have hslot : portReg 128 = .cmd := (portReg_eq_cmd 128).mpr rfl
  simp only [perform, hslot, writePort]

/-- While `ERR = 0` a word that decodes is accepted and its command runs (R241). -/
theorem issueCommand_of_decode {w : Word} {s : State} {i : Instr} (herr : s.err = false)
    (hdec : decode w = .ok i) : issueCommand w s = exec i { s with lastcmd := w } := by
  simp [issueCommand, acceptCommand, herr, hdec]

/-- Settles O6: the next action is taken off the list, it writes `CMD`, and the word is accepted. -/
theorem stepRunsTheDecodedCommand : Obligations.StepRunsTheDecodedCommand := by
  intro s w rest i hpending herr hdec
  rw [step_of_pending hpending, perform_portWrite_cmd]
  exact issueCommand_of_decode herr hdec

/-- Settles O7: the two cases of the host's list. -/
theorem stepTakesTheNextAction : Obligations.StepTakesTheNextAction :=
  ⟨fun _ _ _ => step_of_pending, fun _ => step_of_idle⟩

end Sys2Proof.Machine
end

section
/-! PROOFS. The word of a decoded command is the command's encoding, so the `FCMD` of a fault is the word
that was written (30_encoding.md R90 to R93, R96; log entry 11). -/

namespace Sys2Proof

/-- A word is the packing of its five fields (R90). -/
theorem packWord_fields (w : Word) :
    packWord (w.extractLsb' 24 8) (w.extractLsb' 19 5) (w.extractLsb' 14 5) (w.extractLsb' 9 5)
      (w.extractLsb' 0 9) = w := by
  refine BitVec.eq_of_getLsbD_eq fun k hk => ?_
  rw [getLsbD_packWord]
  simp only [BitVec.getLsbD_extractLsb']
  split_ifs with h9 h14 h19 h24
  · simp [h9]
  · simp [show 9 + (k - 9) = k by omega, show k - 9 < 5 by omega]
  · simp [show 14 + (k - 14) = k by omega, show k - 14 < 5 by omega]
  · simp [show 19 + (k - 19) = k by omega, show k - 19 < 5 by omega]
  · simp [show 24 + (k - 24) = k by omega, show k - 24 < 8 by omega]

/-- A field the mask covers is the pattern's (R91). -/
theorem extractLsb'_of_mask {w mask pattern : Word} (h : w &&& mask = pattern) (a n : Nat)
    (hmask : mask.extractLsb' a n = BitVec.allOnes n) :
    w.extractLsb' a n = pattern.extractLsb' a n := by
  rw [← h, BitVec.extractLsb'_and, hmask, BitVec.and_allOnes]

@[simp] theorem regField_fieldRd (w : Word) : regField (fieldRd w) = w.extractLsb' 19 5 := by
  simp only [regField, fieldRd, BitVec.ofNat_toNat, BitVec.setWidth_eq]

@[simp] theorem regField_fieldRs1 (w : Word) : regField (fieldRs1 w) = w.extractLsb' 14 5 := by
  simp only [regField, fieldRs1, BitVec.ofNat_toNat, BitVec.setWidth_eq]

@[simp] theorem regField_fieldRs2 (w : Word) : regField (fieldRs2 w) = w.extractLsb' 9 5 := by
  simp only [regField, fieldRs2, BitVec.ofNat_toNat, BitVec.setWidth_eq]

/-- The operand of CTRINC is the whole `imm` field (R92). -/
theorem ofNat_fieldImm (w : Word) : BitVec.ofNat 9 (fieldImm w) = w.extractLsb' 0 9 := by
  simp only [fieldImm, BitVec.ofNat_toNat, BitVec.setWidth_eq]

/-- An `imm` field whose upper bits the mask holds clear is its low part, widened (R91, R92). -/
theorem setWidth_low_imm_of_mask {w mask pattern : Word} (h : w &&& mask = pattern) {n : Nat}
    (hn : n ≤ 9) (hmask : mask.extractLsb' n (9 - n) = BitVec.allOnes (9 - n))
    (hclear : pattern.extractLsb' n (9 - n) = 0#(9 - n)) :
    (w.extractLsb' 0 n).setWidth 9 = w.extractLsb' 0 9 := by
  refine BitVec.eq_of_getLsbD_eq fun k hk => ?_
  by_cases hlow : k < n
  · simp [hk, hlow]
  · have hbit : w.getLsbD k = false := by
      have hupper := (extractLsb'_of_mask h n (9 - n) hmask).trans hclear
      simpa [show k - n < 9 - n by omega, show n + (k - n) = k by omega] using
        congrArg (fun v => v.getLsbD (k - n)) hupper
    simp [hlow, hbit]

/-- The selector of CLMUL is `imm` when the row holds the upper bits clear (R91, R92). -/
theorem setWidth_fieldSel_of_mask {w mask pattern : Word} (h : w &&& mask = pattern)
    (hmask : mask.extractLsb' 2 7 = BitVec.allOnes 7) (hclear : pattern.extractLsb' 2 7 = 0#7) :
    (fieldSel w).setWidth 9 = w.extractLsb' 0 9 :=
  setWidth_low_imm_of_mask h (n := 2) (by decide) hmask hclear

/-- The operand of BLDTBL and FOLDB, less one, is `imm` when the row holds the upper bits clear
(R91, R92). -/
theorem ofNat_fieldCount_of_mask {w mask pattern : Word} (h : w &&& mask = pattern)
    (hmask : mask.extractLsb' 3 6 = BitVec.allOnes 6) (hclear : pattern.extractLsb' 3 6 = 0#6) :
    BitVec.ofNat 9 (fieldCount w - 1) = w.extractLsb' 0 9 := by
  rw [← setWidth_low_imm_of_mask h (n := 3) (by decide) hmask hclear, fieldCount,
    Nat.add_sub_cancel, BitVec.ofNat_toNat]

/-- A command of the table whose row the word selects encodes to that word (R90 to R92, R95). -/
theorem encode_build_of_selects {r : OpRow} (hr : r ∈ opcodeTable) {w : Word}
    (hsel : r.selects w = true) : encode (r.build w) = w := by
  have hmask : w &&& r.mask = r.pattern := by simpa [OpRow.selects] using hsel
  clear hsel
  refine Eq.trans ?_ (packWord_fields w)
  simp only [opcodeTable, fieldRows, hashRows, cipherRows, List.cons_append, List.nil_append,
    List.mem_cons, List.not_mem_nil, or_false] at hr
  -- Row by row: an operand's field is the command's operand, every other field is the pattern's.
  rcases hr with rfl | rfl | rfl | rfl | rfl | rfl | rfl | rfl | rfl | rfl | rfl | rfl | rfl |
    rfl | rfl <;> dsimp only at hmask ⊢ <;>
  simp (disch := decide) only [encode, regField_fieldRd, regField_fieldRs1, regField_fieldRs2,
    ofNat_fieldImm, setWidth_fieldSel_of_mask hmask, ofNat_fieldCount_of_mask hmask,
    extractLsb'_of_mask hmask] <;> rfl

theorem exists_row_of_decode {w : Word} {i : Instr} (h : decode w = .ok i) :
    ∃ r ∈ opcodeTable, r.selects w = true ∧ i = r.build w := by
  unfold decode at h
  split at h
  next r hfind =>
    exact ⟨r, List.mem_of_find?_eq_some hfind, by simpa using List.find?_some hfind,
      (Except.ok.inj h).symm⟩
  next => cases h

/-- A word that decodes is the word of its command (R90, R96). -/
theorem encode_of_decode {w : Word} {i : Instr} (h : decode w = .ok i) : encode i = w := by
  obtain ⟨r, hr, hsel, rfl⟩ := exists_row_of_decode h
  exact encode_build_of_selects hr hsel

end Sys2Proof
end

section
/-! PROOFS. A host's lane write, lane by lane and valid bit by valid bit (10_state.md R27, R41). -/

namespace Sys2Proof.Machine

section

variable (s : State) (i r : RegIdx) (j k : Fin 4) (v : Word)

/-- Every lane after the host wrote lane `j` of register `i` (R41). -/
theorem lane_setLane : laneOf ((s.setLane i j v).reg r) k.val =
    if r = i ∧ k = j then v else laneOf (s.reg r) k.val := by
  rw [reg_setLane]
  by_cases hr : r = i
  · subst hr
    by_cases hk : k = j
    · subst hk; simp [laneOf_withLane_same]
    · simp [hk, laneOf_withLane_ne _ _ _ _ (Ne.symm hk)]
  · simp [hr, Ne.symm hr]

/-- The bit of lane `j` set in a register's valid bits (R27). -/
theorem getLsbD_or_lane (b : BitVec 4) :
    (b ||| 1#4 <<< j.val).getLsbD k.val = (decide (k = j) || b.getLsbD k.val) := by
  revert b j k; decide

/-- The valid bits of any register after the host wrote a lane (R27). -/
theorem xv_setLane : (s.setLane i j v).xv[r] =
    if i = r then s.xv[i] ||| 1#4 <<< j.val else s.xv[r] := by
  simp [Vector.getElem_set, Fin.ext_iff]

/-- Every valid bit after the host wrote lane `j` of register `i` (R27, R41). -/
theorem lane_valid_setLane : (s.setLane i j v).xv[r].getLsbD k.val =
    (decide (r = i ∧ k = j) || s.xv[r].getLsbD k.val) := by
  rw [xv_setLane]
  by_cases hr : r = i
  · subst hr; simp only [if_true, getLsbD_or_lane, true_and]
  · simp [hr, Ne.symm hr]

end

/-- A register whose valid bits are all set has that of each lane set (R27). -/
theorem getLsbD_allLanes (j : Fin 4) : (0xF#4).getLsbD j.val = true := by
  revert j; decide

end Sys2Proof.Machine
end

section
/-! PROOFS. What a command can do to a register: leave it, write it and make it valid, or, as BLDTBL does
to the entries it does not fill, clear it. No command touches a register it does not name
(10_state.md R24, R26, R27, R34, 41_powers_table.md R151, 70_reset_and_hazards.md R274). -/

namespace Sys2Proof.Machine

/-- The registers a command writes, all eight of the table for BLDTBL (R24, R26, R151, R274). -/
def writesReg : Instr → RegIdx → Prop
  | .bxor rd _ _, r => r = rd
  | .clmul rd _ _ _, r => r = rd
  | .clmulw _ _, r => r = Reg.pl ∨ r = Reg.ph
  | .clmac _ _, r => r = Reg.pl ∨ r = Reg.ph
  | .gfred rd, r => r = rd
  | .gfmul rd _ _, r => r = rd
  | .bldtbl _, r => r.val < 8
  | .foldh, r => r = Reg.acc
  | .foldb _, r => r = Reg.acc
  | .aesenc rd _ _, r => r = rd
  | .aesenclast rd _ _, r => r = rd
  | .aesblk rd _, r => r = rd
  | .ctrinc _, r => r = Reg.ctr
  | .ctrenc, r => r = Reg.acc ∨ r = Reg.ctr
  | .ctrdec, r => r = Reg.acc ∨ r = Reg.ctr

/-- The registers a command clears: `T[n..7]`, by BLDTBL `n` (R151). -/
def clearsReg (i : Instr) (r : RegIdx) : Prop := ∃ n, i = .bldtbl n ∧ n ≤ r.val ∧ r.val < 8

/-- What became of register `r` from `s` to `t`: left alone, written and valid (then `written` holds), or
cleared and invalid (then `cleared` holds). -/
inductive RegFate (written cleared : Prop) (s t : State) (r : RegIdx) : Prop where
  | kept (hx : t.x[r] = s.x[r]) (hxv : t.xv[r] = s.xv[r])
  | wrote (h : written) (hxv : t.xv[r] = 0xF#4)
  | clear (h : cleared) (hx : t.x[r] = 0#128) (hxv : t.xv[r] = 0#4)

section

variable {written cleared : Prop} (s : State) (r : RegIdx)

theorem regFate_refl : RegFate written cleared s s r := .kept rfl rfl

/-- A register write leaves the other registers alone (R10, R27). -/
theorem regFate_setReg (a : RegIdx) (v : Block) (h : r = a → written) :
    RegFate written cleared s (s.setReg a v) r := by
  by_cases hra : r = a
  · exact .wrote (h hra) ((xv_setReg s a r v).trans (if_pos hra.symm))
  · exact .kept ((reg_setReg s a r v).trans (if_neg (Ne.symm hra)))
      ((xv_setReg s a r v).trans (if_neg (Ne.symm hra)))

/-- Two register writes, one after the other (R124, R125). -/
theorem regFate_setReg_setReg (a b : RegIdx) (v w : Block) :
    RegFate (r = a ∨ r = b) cleared s ((s.setReg a v).setReg b w) r := by
  obtain ⟨hx, hxv⟩ | ⟨hb, hxv⟩ | ⟨hno, -, -⟩ :=
    regFate_setReg (written := r = b) (cleared := False) (s.setReg a v) r b w id
  · obtain ⟨hx', hxv'⟩ | ⟨ha, hxv'⟩ | ⟨hno, -, -⟩ :=
      regFate_setReg (written := r = a) (cleared := False) s r a v id
    · exact .kept (hx.trans hx') (hxv.trans hxv')
    · exact .wrote (.inl ha) (hxv.trans hxv')
    · exact hno.elim
  · exact .wrote (.inr hb) hxv
  · exact hno.elim

/-- BLDTBL fills entries below `n` and clears those from `n` on (R151). -/
theorem regFate_buildTable (h : Block) (n : Nat) :
    RegFate (r.val < 8) (n ≤ r.val ∧ r.val < 8) s (buildTable h n s) r := by
  have hx := reg_buildTable h n s r
  have hxv := xv_buildTable h n s r
  by_cases htable : r.val < 8
  · rw [if_pos htable] at hx hxv
    by_cases hfilled : r.val < n
    · exact .wrote htable (by rw [hxv, if_pos hfilled])
    · rw [if_neg hfilled] at hx hxv
      exact .clear ⟨Nat.le_of_not_lt hfilled, htable⟩ hx hxv
  · rw [if_neg htable] at hx hxv
    exact .kept hx hxv

/-- The codec writes `CTR`, and `ACC` when `LEN >= 1` (R215, R219, R222). -/
theorem regFate_codec (dec : Bool) :
    RegFate (r = Reg.acc ∨ r = Reg.ctr) cleared s (codec dec s) r := by
  have hx := reg_codec dec s r
  have hxv := xv_codec dec s r
  by_cases hctr : r = Reg.ctr
  · exact .wrote (.inr hctr) (by rw [hxv, if_pos (.inl hctr)])
  · by_cases hacc : r = Reg.acc ∧ s.len ≠ 0#32
    · exact .wrote (.inl hacc.1) (by rw [hxv, if_pos (.inr hacc)])
    · rw [if_neg hctr, if_neg hacc] at hx
      rw [if_neg (not_or.mpr ⟨hctr, hacc⟩)] at hxv
      exact .kept hx hxv

/-- FOLDH and FOLDB write `ACC` unless the buffer is empty (R161, R172). -/
theorem regFate_fold (v : Block) :
    RegFate (r = Reg.acc) cleared s (if s.len = 0#32 then s else s.setReg Reg.acc v) r := by
  split
  · exact regFate_refl s r
  · exact regFate_setReg s r Reg.acc v id

end

/-- What the effect of a command does to each register, command by command. -/
theorem regFate_effect (i : Instr) (s : State) (r : RegIdx) :
    RegFate (writesReg i r) (clearsReg i r) s (effect i s) r := by
  cases i with
  | bxor rd _ _ => exact regFate_setReg s r rd _ id
  | clmul rd _ _ _ => exact regFate_setReg s r rd _ id
  | clmulw _ _ => exact regFate_setReg_setReg s r _ _ _ _
  | clmac _ _ => exact regFate_setReg_setReg s r _ _ _ _
  | gfred rd => exact regFate_setReg s r rd _ id
  | gfmul rd _ _ => exact regFate_setReg s r rd _ id
  | bldtbl n =>
    obtain ⟨hx, hxv⟩ | ⟨h, hxv⟩ | ⟨h, hx, hxv⟩ := regFate_buildTable s r (s.reg Reg.h) n
    · exact .kept hx hxv
    · exact .wrote h hxv
    · exact .clear ⟨n, rfl, h⟩ hx hxv
  | foldh => exact regFate_fold s r _
  | foldb _ => exact regFate_fold s r _
  | aesenc rd _ _ => exact regFate_setReg s r rd _ id
  | aesenclast rd _ _ => exact regFate_setReg s r rd _ id
  | aesblk rd _ => exact regFate_setReg s r rd _ id
  | ctrinc _ => exact regFate_setReg s r Reg.ctr _ id
  | ctrenc => exact regFate_codec s r false
  | ctrdec => exact regFate_codec s r true

/-- What a command does to each register, its fault included: a fault leaves all alone (R242). -/
theorem regFate_exec {i : Instr} {s t : State} (h : exec i s = .next t) (r : RegIdx) :
    RegFate (writesReg i r) (clearsReg i r) s t r := by
  obtain ⟨-, rfl⟩ | ⟨-, rfl⟩ := exec_cases h
  · exact regFate_effect i s r
  · exact .kept rfl rfl

/-- A command changes registers, memory and the latch only (R34, R241, R243). -/
theorem exec_frame {i : Instr} {s t : State} (h : exec i s = .next t) :
    t = { s with
      x := t.x, xv := t.xv, mem := t.mem, err := t.err, cause := t.cause, fcmd := t.fcmd } := by
  obtain ⟨-, rfl⟩ | ⟨-, rfl⟩ := exec_cases h
  · rw [effect_frame]
  · rfl

/-- A register a command does not write keeps its Block and its valid bits (R24, R26, R274). -/
theorem exec_keeps_unwritten {i : Instr} {s t : State} (h : exec i s = .next t) {r : RegIdx}
    (hr : ¬ writesReg i r) : t.x[r] = s.x[r] ∧ t.xv[r] = s.xv[r] := by
  obtain ⟨hx, hxv⟩ | ⟨hwritten, -⟩ | ⟨⟨n, rfl, -, hlt⟩, -, -⟩ := regFate_exec h r
  · exact ⟨hx, hxv⟩
  · exact absurd hwritten hr
  · exact absurd hlt hr

/-- Settles O57: the command answers, only registers, memory and the latch differ, and of the registers
only those it names. -/
theorem commandsWriteOnlyWhatTheyName : Obligations.CommandsWriteOnlyWhatTheyName := by
  intro i s
  obtain ⟨t, ht⟩ := exec_answers_next i s
  refine ⟨t, ht, exec_frame ht, fun r hr => exec_keeps_unwritten ht ?_⟩
  cases i with
  | clmulw _ _ => exact not_or.mpr hr
  | clmac _ _ => exact not_or.mpr hr
  | bldtbl _ => exact Nat.not_lt.mpr hr
  | ctrenc => exact not_or.mpr hr
  | ctrdec => exact not_or.mpr hr
  | _ => exact hr

end Sys2Proof.Machine
end

section
/-! PROOFS. The invariant of the machine (`Inv`): one lemma for each thing a step can do, then the step
(10_state.md R27, R29, R35, R37, 20_memory.md R60, R61, 60_exceptions.md R241, R243, R248). -/

namespace Sys2Proof.Machine

/-! ### Memory stays canonical under the codec -/

/-- A command that passes its checks and writes memory stays inside the address space (R61 (a)). -/
theorem output_le_addrSpace {i : Instr} {s : State} (hout : writesOutput i = true)
    (hpass : firstFailure i s = .noFault) : s.dst.toNat + s.len.toNat ≤ Config.addrSpace := by
  obtain ⟨-, hrange, -, -⟩ := (firstFailure_eq_noFault_iff i s).mp hpass
  simp only [rangeOk, hout, Bool.not_true, Bool.false_or, Bool.and_eq_true,
    decide_eq_true_eq] at hrange
  exact hrange.2

theorem wf_phaseA (dec : Bool) {s : State} {c : CodecRun} (hc : c.mem.wf)
    (hroom : s.dst.toNat + c.pos + 96 ≤ Config.addrSpace) : (phaseA dec s c).mem.wf := by
  simp only [phaseA]
  refine Memory.wf_writeBlocks _ _ _ hc ?_
  simp only [List.length_zipWith, List.length_map, List.length_range, Memory.fullBlocks,
    Config.codecWidth]
  omega

theorem wf_phaseB (dec : Bool) {s : State} {c : CodecRun} (hc : c.mem.wf)
    (hroom : s.dst.toNat + c.pos + 16 ≤ Config.addrSpace) : (phaseB dec s c).mem.wf :=
  Memory.wf_writeBlock _ _ _ _ hc hroom

theorem wf_phaseC (dec : Bool) {s : State} {c : CodecRun} (r : Nat) (hc : c.mem.wf)
    (hroom : s.dst.toNat + c.pos + r ≤ Config.addrSpace) : (phaseC dec s r c).mem.wf :=
  Memory.wf_writeBlock _ _ _ _ hc hroom

theorem pos_repeatPhase {f : CodecRun → CodecRun} {d : Nat} (hpos : ∀ c, (f c).pos = c.pos + d)
    (n : Nat) (c : CodecRun) : (repeatPhase f n c).pos = c.pos + d * n := by
  induction n generalizing c with
  | zero => rfl
  | succ n ih => rw [repeatPhase, ih, hpos]; ring

/-- A phase that moves on by `d` bytes and keeps memory canonical while `d` bytes are left does so when
repeated `n` times with `d * n` bytes left. -/
theorem wf_repeatPhase {f : CodecRun → CodecRun} {d base : Nat} (hpos : ∀ c, (f c).pos = c.pos + d)
    (hwf : ∀ c, c.mem.wf → base + c.pos + d ≤ Config.addrSpace → (f c).mem.wf)
    (n : Nat) {c : CodecRun} (hc : c.mem.wf) (hroom : base + c.pos + d * n ≤ Config.addrSpace) :
    (repeatPhase f n c).mem.wf := by
  induction n generalizing c with
  | zero => exact hc
  | succ n ih =>
    rw [Nat.mul_succ] at hroom
    exact ih (hwf c hc (by omega)) (by rw [hpos]; omega)

/-- The codec keeps memory canonical when its output does not wrap (R61 (a), R215). -/
theorem wf_codecPhases (dec : Bool) {s : State} (hm : s.mem.wf)
    (hroom : s.dst.toNat + s.len.toNat ≤ Config.addrSpace) : (codecPhases dec s).mem.wf := by
  have hposA : ∀ c, (phaseA dec s c).pos = c.pos + 96 := fun _ => rfl
  have hposB : ∀ c, (phaseB dec s c).pos = c.pos + 16 := fun _ => rfl
  have hstart : (codecStart s).pos = 0 := rfl
  have hA := wf_repeatPhase hposA (fun _ => wf_phaseA dec) (s.len.toNat / 96)
    (c := codecStart s) hm (by omega)
  have hpA := pos_repeatPhase hposA (s.len.toNat / 96) (codecStart s)
  have hB := wf_repeatPhase hposB (fun _ => wf_phaseB dec) (s.len.toNat % 96 / 16) hA (by omega)
  have hpB := pos_repeatPhase hposB (s.len.toNat % 96 / 16)
    (repeatPhase (phaseA dec s) (s.len.toNat / 96) (codecStart s))
  simp only [codecPhases]
  split
  · exact hB
  · exact wf_phaseC dec _ hB (by omega)

/-- A command that passes its checks keeps memory canonical. -/
theorem wf_effect {i : Instr} {s : State} (hpass : firstFailure i s = .noFault) (hm : s.mem.wf) :
    (effect i s).mem.wf := by
  cases hout : writesOutput i with
  | false => rw [effect_mem i s hout]; exact hm
  | true =>
    have hroom := output_le_addrSpace hout hpass
    cases i with
    | ctrenc => exact codec_mem false s ▸ wf_codecPhases false hm hroom
    | ctrdec => exact codec_mem true s ▸ wf_codecPhases true hm hroom
    | _ => cases hout

/-! ### The invariant, operation by operation -/

/-- The invariant reads seven fields. It holds of a state that differs in the others only: those of the
host and the platform, the free values drawn, `CFG`, `SRC`, `DST` and `LEN` (R33, R34). -/
theorem inv_congr {s t : State} (h : Inv s) (hx : t.x = s.x := by rfl) (hxv : t.xv = s.xv := by rfl)
    (hmem : t.mem = s.mem := by rfl) (herr : t.err = s.err := by rfl)
    (hcause : t.cause = s.cause := by rfl) (hfcmd : t.fcmd = s.fcmd := by rfl)
    (hlast : t.lastcmd = s.lastcmd := by rfl) : Inv t := by
  obtain ⟨memory, cause, noFaultWord, faultWord, lanes⟩ := h
  exact ⟨hmem ▸ memory, by rw [herr, hcause]; exact cause, by rw [herr, hfcmd]; exact noFaultWord,
    by rw [herr, hfcmd, hlast]; exact faultWord, by rw [hx, hxv]; exact lanes⟩

/-- Reset values meet the invariant over any canonical memory (R46). -/
theorem inv_resetCore {s : State} (hm : s.mem.wf) : Inv (resetCore s) where
  memory := hm
  cause := by simp
  noFaultWord := by simp
  faultWord := by simp
  lanes i j _ := by simp [laneOf]

/-- A fault is latched with the word that was accepted last (R241, R243). -/
theorem inv_raiseFault {s : State} (h : Inv s) {c : Cause} (hc : c ≠ .noFault) :
    Inv (raiseFault c s.lastcmd s) where
  memory := h.memory
  cause := by simp [hc]
  noFaultWord := by simp
  faultWord := by simp
  lanes := h.lanes

/-- While `ERR = 0` the last accepted word is free (R241). -/
theorem inv_accept {s : State} (h : Inv s) (herr : s.err = false) (w : Word) :
    Inv { s with lastcmd := w } where
  memory := h.memory
  cause := h.cause
  noFaultWord := h.noFaultWord
  faultWord herr' := by simp [herr] at herr'
  lanes := h.lanes

/-- A host write of memory (R43). -/
theorem inv_memWrite {s : State} (h : Inv s) (a : Word) (v : Byte) :
    Inv { s with mem := s.mem.write a.toNat v } where
  memory := Memory.wf_write _ _ _ h.memory a.isLt
  cause := h.cause
  noFaultWord := h.noFaultWord
  faultWord := h.faultWord
  lanes := h.lanes

/-- A lane write: the lane written becomes valid, the others are as before (R27, R41). -/
theorem inv_setLane {s : State} (h : Inv s) (i : RegIdx) (j : Fin 4) (v : Word) :
    Inv (s.setLane i j v) where
  memory := h.memory
  cause := h.cause
  noFaultWord := h.noFaultWord
  faultWord := h.faultWord
  lanes r k hk := by
    rw [lane_valid_setLane, Bool.or_eq_false_iff, decide_eq_false_iff_not] at hk
    obtain ⟨hwritten, hinvalid⟩ := hk
    exact (lane_setLane s i r j k v).trans ((if_neg hwritten).trans (h.lanes r k hinvalid))

/-- The effect of a command that passes its checks (R27, R151). -/
theorem inv_effect {i : Instr} {s : State} (h : Inv s) (hpass : firstFailure i s = .noFault) :
    Inv (effect i s) where
  memory := wf_effect hpass h.memory
  cause := by rw [effect_err, effect_cause]; exact h.cause
  noFaultWord := by rw [effect_err, effect_fcmd]; exact h.noFaultWord
  faultWord := by rw [effect_err, effect_fcmd, effect_lastcmd]; exact h.faultWord
  lanes r j hj := by
    obtain ⟨hx, hxv⟩ | ⟨-, hxv⟩ | ⟨-, hx, -⟩ := regFate_effect i s r
    · rw [hx]; exact h.lanes r j (hxv ▸ hj)
    · rw [hxv, getLsbD_allLanes] at hj
      cases hj
    · rw [hx]; simp [laneOf]

/-- A command run as the word accepted last, while `ERR = 0` (R241 to R243). -/
theorem inv_exec {i : Instr} {s t : State} (h : Inv s) (hword : encode i = s.lastcmd)
    (ht : exec i s = .next t) : Inv t := by
  obtain ⟨hpass, rfl⟩ | ⟨hfail, rfl⟩ := exec_cases ht
  · exact inv_effect h hpass
  · rw [hword]; exact inv_raiseFault h hfail

theorem inv_issueCommand {w : Word} {s t : State} (h : Inv s) (ht : issueCommand w s = .next t) :
    Inv t := by
  obtain ⟨-, ignored⟩ | ⟨herr, -, -, illegal⟩ | ⟨herr, i, hdec, runs⟩ := issueCommand_cases w s
  · obtain rfl := Host.Outcome.next.inj (ignored.symm.trans ht)
    exact h
  · obtain rfl := Host.Outcome.next.inj (illegal.symm.trans ht)
    exact inv_raiseFault (inv_accept h herr w) (by decide)
  · rw [runs] at ht
    exact inv_exec (inv_accept h herr w) (encode_of_decode hdec) ht

theorem inv_writeReg {s : State} (h : Inv s) (r : PortReg) (v : Word) : Inv (writeReg r v s) := by
  cases r with
  | lane i j => exact inv_setLane h i j v
  | _ => exact inv_congr h

theorem inv_writePort {r : PortReg} {v : Word} {s t : State} (h : Inv s)
    (ht : writePort r v s = .next t) : Inv t := by
  obtain ⟨-, issues⟩ | ⟨-, control⟩ | ⟨-, -, -, ignored⟩ | ⟨-, -, -, written⟩ := writePort_cases r v s
  · exact inv_issueCommand h (issues ▸ ht)
  · obtain rfl := Host.Outcome.next.inj (control.symm.trans ht)
    obtain ⟨-, hreset⟩ | ⟨-, hkeep⟩ := writeCtrl_cases v s
    · rw [hreset]; exact inv_resetCore h.memory
    · rw [hkeep]; exact h
  · obtain rfl := Host.Outcome.next.inj (ignored.symm.trans ht)
    exact h
  · obtain rfl := Host.Outcome.next.inj (written.symm.trans ht)
    exact inv_writeReg h r v

/-- A word that would write memory is a command with an output buffer, past its checks (R241, R244). -/
theorem command_of_writesMemory {w : Word} {s : State} (h : writesMemory w s = true) :
    ∃ i, decode w = .ok i ∧ writesOutput i = true ∧ firstFailure i s = .noFault := by
  unfold writesMemory at h
  cases hdec : decode w with
  | ok i => exact ⟨i, rfl, by simpa [hdec] using (Bool.and_eq_true_iff.mp h).2⟩
  | error e => simp [hdec] at h

/-- A hard reset in the middle of a command: the free bytes stay inside the output (R270). -/
theorem inv_resetDuring {s : State} (hm : s.mem.wf) (w : Word) : Inv (resetDuring w s) := by
  unfold resetDuring
  split
  next hwrites =>
    obtain ⟨i, -, hout, hpass⟩ := command_of_writesMemory hwrites
    exact inv_resetCore (Memory.wf_writeBytes _ _ _ hm
      (by simpa using output_le_addrSpace hout hpass))
  next => exact inv_resetCore hm

theorem inv_perform {a : HostAction} {s t : State} (h : Inv s) (ht : perform a s = .next t) :
    Inv t := by
  cases a with
  | portRead slot => obtain rfl := Host.Outcome.next.inj ht; exact inv_congr h
  | portWrite slot v => exact inv_writePort h ht
  | memRead x => obtain rfl := Host.Outcome.next.inj ht; exact inv_congr h
  | memWrite x v => obtain rfl := Host.Outcome.next.inj ht; exact inv_memWrite h x v
  | hardReset => obtain rfl := Host.Outcome.next.inj ht; exact inv_resetCore h.memory
  | hardResetDuring w => obtain rfl := Host.Outcome.next.inj ht; exact inv_resetDuring h.memory w

/-- Settles O9: the host's list is empty and the state stays, or its next action is performed. -/
theorem stepKeepsInv : Obligations.StepKeepsInv := by
  intro s t h ht
  cases hpending : s.pending with
  | nil =>
    obtain rfl := Host.Outcome.next.inj ((step_of_idle hpending).symm.trans ht)
    exact h
  | cons a rest =>
    rw [step_of_pending hpending] at ht
    exact inv_perform (inv_congr h (t := { s with pending := rest, cp := s.cp + 1 })) ht

/-- Settles O10: the reset state is what a reset makes of it, and its memory lists no cell. -/
theorem resetMeetsInv : Obligations.ResetMeetsInv :=
  inv_resetCore (s := State.reset) ⟨.nil, by simp [State.reset]⟩

end Sys2Proof.Machine
end

section
/-! PROOFS. What clears a valid bit: a reset, and BLDTBL `n` for `T[n..7]` (10_state.md R27,
41_powers_table.md R151). The cases follow the ways an action reaches the registers. -/

namespace Sys2Proof.Machine

section

variable {s t : State} {r : RegIdx} {j : Fin 4}

/-- A command clears a valid bit only of a register it clears. -/
theorem clears_of_exec {i : Instr} (ht : exec i s = .next t)
    (hset : s.xv[r].getLsbD j.val = true) (hclear : t.xv[r].getLsbD j.val = false) :
    clearsReg i r := by
  obtain ⟨-, hxv⟩ | ⟨-, hxv⟩ | ⟨h, -, -⟩ := regFate_exec ht r
  · rw [hxv] at hclear
    exact Bool.noConfusion (hset.symm.trans hclear)
  · rw [hxv] at hclear
    exact Bool.noConfusion ((getLsbD_allLanes j).symm.trans hclear)
  · exact h

theorem issueCommand_clears_valid_bit {w : Word} (ht : issueCommand w s = .next t)
    (hset : s.xv[r].getLsbD j.val = true) (hclear : t.xv[r].getLsbD j.val = false) :
    ∃ n, decode w = .ok (.bldtbl n) ∧ n ≤ r.val ∧ r.val < 8 := by
  obtain ⟨-, ignored⟩ | ⟨-, _, -, illegal⟩ | ⟨-, i, hdec, runs⟩ := issueCommand_cases w s
  · obtain rfl := Host.Outcome.next.inj (ignored.symm.trans ht)
    exact Bool.noConfusion (hset.symm.trans hclear)
  · obtain rfl := Host.Outcome.next.inj (illegal.symm.trans ht)
    exact Bool.noConfusion (hset.symm.trans hclear)
  · obtain ⟨n, rfl, hn⟩ := clears_of_exec (s := { s with lastcmd := w }) (runs ▸ ht) hset hclear
    exact ⟨n, hdec, hn⟩

/-- A write of a port register sets valid bits at most (R27, R41). -/
theorem writeReg_keeps_valid_bit (p : PortReg) (v : Word)
    (hset : s.xv[r].getLsbD j.val = true) : (writeReg p v s).xv[r].getLsbD j.val = true := by
  cases p with
  | lane i k => exact (lane_valid_setLane s i r k j v).trans (by rw [hset, Bool.or_true])
  | _ => exact hset

theorem writePort_clears_valid_bit {p : PortReg} {v : Word} (ht : writePort p v s = .next t)
    (hset : s.xv[r].getLsbD j.val = true) (hclear : t.xv[r].getLsbD j.val = false) :
    (p = .ctrl ∧ v.getLsbD 0 = true) ∨
      (p = .cmd ∧ ∃ n, decode v = .ok (.bldtbl n) ∧ n ≤ r.val ∧ r.val < 8) := by
  obtain ⟨hp, issues⟩ | ⟨hp, control⟩ | ⟨-, -, -, ignored⟩ | ⟨-, -, -, written⟩ :=
    writePort_cases p v s
  · exact .inr ⟨hp, issueCommand_clears_valid_bit (issues ▸ ht) hset hclear⟩
  · obtain rfl := Host.Outcome.next.inj (control.symm.trans ht)
    obtain ⟨hbit, -⟩ | ⟨-, hkeep⟩ := writeCtrl_cases v s
    · exact .inl ⟨hp, hbit⟩
    · rw [hkeep] at hclear
      exact Bool.noConfusion (hset.symm.trans hclear)
  · obtain rfl := Host.Outcome.next.inj (ignored.symm.trans ht)
    exact Bool.noConfusion (hset.symm.trans hclear)
  · obtain rfl := Host.Outcome.next.inj (written.symm.trans ht)
    exact Bool.noConfusion ((writeReg_keeps_valid_bit p v hset).symm.trans hclear)

/-- An action that clears a valid bit is a reset or issues a BLDTBL that clears the register. -/
theorem perform_clears_valid_bit {a : HostAction} (ht : perform a s = .next t)
    (hset : s.xv[r].getLsbD j.val = true) (hclear : t.xv[r].getLsbD j.val = false) :
    a = .hardReset ∨ (∃ w, a = .hardResetDuring w) ∨
      (∃ v, a = .portWrite 135 v ∧ v.getLsbD 0 = true) ∨
      (∃ w n, a = .portWrite 128 w ∧ decode w = .ok (.bldtbl n) ∧ n ≤ r.val ∧ r.val < 8) := by
  cases a with
  | portRead _ | memRead _ | memWrite _ _ =>
    obtain rfl := Host.Outcome.next.inj ht
    exact Bool.noConfusion (hset.symm.trans hclear)
  | hardReset => exact .inl rfl
  | hardResetDuring w => exact .inr (.inl ⟨w, rfl⟩)
  | portWrite slot v =>
    obtain ⟨hctrl, hbit⟩ | ⟨hcmd, n, hbldtbl⟩ := writePort_clears_valid_bit ht hset hclear
    · obtain rfl := (portReg_eq_ctrl slot).mp hctrl
      exact .inr (.inr (.inl ⟨v, rfl, hbit⟩))
    · obtain rfl := (portReg_eq_cmd slot).mp hcmd
      exact .inr (.inr (.inr ⟨v, n, rfl, hbldtbl⟩))

end

/-- Settles O60: a bit that is set is one of the four lanes', and the step performs the action. -/
theorem validBitsClearedOnlyByResetAndBldtbl : Obligations.ValidBitsClearedOnlyByResetAndBldtbl := by
  intro s t a rest r j hpending ht hset hclear
  have hj : j < 4 := BitVec.lt_of_getLsbD hset
  rw [step_of_pending hpending] at ht
  exact perform_clears_valid_bit (j := ⟨j, hj⟩) ht hset hclear

end Sys2Proof.Machine
end

section
/-! PROOFS. Resets, the register port and the host's memory accesses (10_state.md R27, R32 to R41, R43,
R46, 60_exceptions.md R245, R256, 70_reset_and_hazards.md R270, R271). -/

namespace Sys2Proof.Machine

/-! ### Reset -/

/-- A write of slot 135 is a write of `CTRL` (R40, R41). -/
theorem perform_portWrite_ctrl (v : Word) (s : State) :
    perform (.portWrite 135 v) s = .next (writeCtrl v s) := by
  have hslot : portReg 135 = .ctrl := (portReg_eq_ctrl 135).mpr rfl
  simp only [perform, hslot, writePort]

/-- A write of 1 to `CTRL` bit 0 is a soft reset (R39). -/
theorem writeCtrl_of_set {v : Word} (h : v.getLsbD 0 = true) (s : State) :
    writeCtrl v s = resetCore s := if_pos h

/-- A write of `CTRL` with bit 0 clear has no effect (R39). -/
theorem writeCtrl_of_clear {v : Word} (h : v.getLsbD 0 = false) (s : State) :
    writeCtrl v s = s := by rw [writeCtrl, h]; rfl

/-- Settles O12: both resets are `resetCore`, and every field of `State.reset` is given. -/
theorem resetValues : Obligations.ResetValues := by
  refine ⟨?_, fun i => ⟨?_, ?_⟩, rfl, rfl, rfl, rfl, rfl, rfl, rfl, rfl⟩
  · rintro s a (rfl | ⟨v, hbit, rfl⟩)
    · rfl
    · rw [perform_portWrite_ctrl, writeCtrl_of_set hbit]; rfl
  · exact reg_resetCore State.reset i
  · simp [State.reset]

/-! ### What the host reads -/

section

variable (s : State)

theorem getLsbD_bit0Word (b : Bool) : (bit0Word b).getLsbD 0 = b := by cases b <;> rfl

/-- The bits of a one-bit register above bit 0 are zero. -/
theorem extractLsb'_bit0Word (b : Bool) : (bit0Word b).extractLsb' 1 31 = 0#31 := by
  cases b <;> rfl

/-- `STATUS` field by field: `ERR` in bit 0, `CAUSE` in bits 11:8, zero elsewhere (R35, R245). -/
theorem statusWord_fields : s.statusWord.getLsbD 0 = s.err ∧ s.statusWord.extractLsb' 1 7 = 0#7 ∧
    s.statusWord.extractLsb' 8 4 = s.cause.code ∧ s.statusWord.extractLsb' 12 20 = 0#20 := by
  unfold State.statusWord
  cases s.cause <;> cases s.err <;> exact ⟨rfl, rfl, rfl, rfl⟩

/-- One bit of a word that has at most bit `n` set. -/
theorem getLsbD_oneBit (b : Bool) {n : Nat} (hn : n < 32) (k : Nat) :
    (if b then 1#32 <<< n else 0#32).getLsbD k = (decide (n = k) && b) := by
  cases b with
  | false => simp
  | true => exact (BitVec.getLsbD_twoPow n k).trans (by simp [hn])

/-- Bit `k` of the low `n` bits of `VALID` (R38). -/
theorem getLsbD_validBits {n : Nat} (hn : n ≤ 32) (k : Nat) :
    (s.validBits n).getLsbD k = (decide (k < n) && s.valid (Fin.ofNat 32 k)) := by
  induction n with
  | zero => simp [State.validBits]
  | succ n ih =>
    rw [State.validBits, BitVec.getLsbD_or, ih (Nat.le_of_succ_le hn), getLsbD_oneBit _ hn]
    by_cases hk : n = k
    · subst hk; simp
    · simp [hk, show k < n + 1 ↔ k < n by omega]

/-- Bit `i` of `VALID` is `valid(i)` (R38). -/
theorem getLsbD_validWord (i : RegIdx) : s.validWord.getLsbD i.val = decide (s.xv[i] = 0xF#4) := by
  rw [State.validWord, getLsbD_validBits s (Nat.le_refl 32), Fin.ofNat_val_eq_self]
  simp only [i.isLt, decide_true, Bool.true_and, State.valid]
  rfl

end

/-- Settles O14: what `readPort` returns, slot by slot. -/
theorem portReadsReturn : Obligations.PortReadsReturn := by
  intro s slot rest hpending
  refine ⟨_, step_of_pending hpending, ?_, ?_, ?_, ?_, ?_, ?_, ?_, ?_, ?_, ?_, ?_⟩
  · intro i j hslot; rw [portReg_lane i j slot hslot]; rfl
  · rintro rfl; rfl
  · rintro rfl; exact statusWord_fields _
  · rintro rfl; exact ⟨getLsbD_bit0Word _, extractLsb'_bit0Word _⟩
  · rintro rfl; rfl
  · rintro rfl; rfl
  · rintro rfl; rfl
  · rintro rfl; exact getLsbD_validWord _
  · rintro rfl; rfl
  · rintro rfl; rfl
  · intro hslot; rw [portReg_reserved slot hslot]; rfl

/-! ### What the host writes -/

/-- While `ERR = 0` a write of a register other than `CMD` and `CTRL` is one step (R15, R41). -/
theorem step_portWrite {s : State} {slot : PortSlot} {v : Word} {rest : List HostAction}
    (hpending : s.pending = .portWrite slot v :: rest) (herr : s.err = false)
    (hcmd : portReg slot ≠ .cmd) (hctrl : portReg slot ≠ .ctrl) :
    step s = .next (writeReg (portReg slot) v { s with pending := rest, cp := s.cp + 1 }) := by
  rw [step_of_pending hpending]
  exact (writePort_of_plain v _ hcmd hctrl).trans (by simp [herr])

/-- A lane write is one step (R41). -/
theorem step_laneWrite {s : State} {i : RegIdx} {j : Fin 4} {slot : PortSlot} {v : Word}
    {rest : List HostAction} (hslot : slot.val = 4 * i.val + j.val)
    (hpending : s.pending = .portWrite slot v :: rest) (herr : s.err = false) :
    step s = .next ({ s with pending := rest, cp := s.cp + 1 }.setLane i j v) := by
  have hreg := portReg_lane i j slot hslot
  have hstep := step_portWrite hpending herr (by simp [hreg]) (by simp [hreg])
  rwa [hreg] at hstep

/-- Settles O15: the step is `setLane`, read lane by lane. -/
theorem laneWriteSetsLaneAndValidBit : Obligations.LaneWriteSetsLaneAndValidBit := by
  intro s i j slot v rest hslot hpending herr
  refine ⟨_, step_laneWrite hslot hpending herr, rfl, fun k => ?_, fun k => ?_, fun r hr => ?_⟩
  · exact (lane_setLane _ i i j k v).trans (by simp only [true_and]; rfl)
  · exact (lane_valid_setLane _ i i j k v).trans (by simp only [true_and])
  · exact ⟨(reg_setLane _ i r j v).trans (if_neg (Ne.symm hr)),
      (xv_setLane _ i r j v).trans (if_neg (Ne.symm hr))⟩

/-- Settles O17: each slot names its register, and `writeReg` says what the register takes. -/
theorem controlRegisterWrites : Obligations.ControlRegisterWrites := by
  intro s slot v rest hpending herr
  have hstep := step_portWrite hpending herr
  refine ⟨?_, ?_, ?_, ?_, ?_⟩
  · rintro rfl; exact hstep (by decide) (by decide)
  · rintro rfl; exact hstep (by decide) (by decide)
  · rintro rfl; exact hstep (by decide) (by decide)
  · rintro rfl; exact hstep (by decide) (by decide)
  · rintro (rfl | rfl | ⟨rfl, hbit⟩ | hslot)
    · exact hstep (by decide) (by decide)
    · exact hstep (by decide) (by decide)
    · rw [step_of_pending hpending, perform_portWrite_ctrl, writeCtrl_of_clear hbit]
    · obtain hfcmd | hreserved := Nat.eq_or_lt_of_le hslot
      · obtain rfl : slot = 136 := Fin.ext hfcmd.symm
        exact hstep (by decide) (by decide)
      · have hreg := portReg_reserved slot hreserved
        rw [hreg] at hstep
        exact hstep (by decide) (by decide)

/-- Settles O19: a memory access is one step, and memory reads back what was written. -/
theorem hostMemoryAccesses : Obligations.HostMemoryAccesses := by
  intro s a rest hm
  refine ⟨fun v hpending => ?_, fun hpending => step_of_pending hpending⟩
  exact ⟨_, step_of_pending hpending, rfl, Memory.wf_write _ _ _ hm a.isLt,
    fun x => Memory.read_write _ _ _ _ hm.1⟩

/-! ### A Block written lane by lane -/

/-- Block `c` after the lanes of `b` in `order` were written to it. -/
def withLanes (b : Block) (order : List (Fin 4)) (c : Block) : Block :=
  order.foldl (fun c j => withLane c j.val (laneOf b j.val)) c

/-- The valid bits of a register after the lanes in `order` were written. -/
def withValid (order : List (Fin 4)) (v : BitVec 4) : BitVec 4 :=
  order.foldl (fun v j => v ||| 1#4 <<< j.val) v

theorem withLanes_cons (b : Block) (j : Fin 4) (order : List (Fin 4)) (c : Block) :
    withLanes b (j :: order) c = withLanes b order (withLane c j.val (laneOf b j.val)) := rfl

theorem withValid_cons (j : Fin 4) (order : List (Fin 4)) (v : BitVec 4) :
    withValid (j :: order) v = withValid order (v ||| 1#4 <<< j.val) := rfl

theorem laneOf_withLanes (b : Block) (order : List (Fin 4)) (c : Block) (k : Fin 4) :
    laneOf (withLanes b order c) k.val = if k ∈ order then laneOf b k.val else laneOf c k.val := by
  induction order generalizing c with
  | nil => simp [withLanes]
  | cons j order ih =>
    rw [withLanes_cons, ih]
    by_cases hk : k = j
    · subst hk; simp [laneOf_withLane_same]
    · simp [hk, laneOf_withLane_ne _ _ _ _ (Ne.symm hk)]

theorem getLsbD_withValid (order : List (Fin 4)) (v : BitVec 4) (k : Fin 4) :
    (withValid order v).getLsbD k.val = (decide (k ∈ order) || v.getLsbD k.val) := by
  induction order generalizing v with
  | nil => simp [withValid]
  | cons j order ih =>
    rw [withValid_cons, ih, getLsbD_or_lane]
    by_cases hk : k = j <;> simp [hk]

/-- Two Blocks with the same four lanes are equal (R9). -/
theorem block_eq_of_lanes {a b : Block} (h : ∀ j : Fin 4, laneOf a j.val = laneOf b j.val) :
    a = b := by
  refine BitVec.eq_of_getLsbD_eq fun k hk => ?_
  have hlane := congrArg (fun v => v.getLsbD (k % 32)) (h ⟨k / 32, by omega⟩)
  simpa [laneOf, Nat.mod_lt, Nat.div_add_mod] using hlane

/-- Writing all four lanes leaves the Block (R41). -/
theorem withLanes_of_all {order : List (Fin 4)} (hall : ∀ j, j ∈ order) (b c : Block) :
    withLanes b order c = b :=
  block_eq_of_lanes fun j => by rw [laneOf_withLanes, if_pos (hall j)]

/-- Writing all four lanes makes the register valid (R41). -/
theorem withValid_of_all {order : List (Fin 4)} (hall : ∀ j, j ∈ order) (v : BitVec 4) :
    withValid order v = 0xF#4 := by
  refine BitVec.eq_of_getLsbD_eq fun k hk => ?_
  exact (getLsbD_withValid order v ⟨k, hk⟩).trans
    (by simp only [hall, decide_true, Bool.true_or]; exact (getLsbD_allLanes ⟨k, hk⟩).symm)

/-- The host's writes of the lanes of `b` in `order` to register `i` (R41). -/
def laneWrites (i : RegIdx) (b : Block) (order : List (Fin 4)) : List HostAction :=
  order.map fun j => .portWrite (Fin.ofNat 1024 (4 * i.val + j.val)) (b.extractLsb' (32 * j.val) 32)

/-- A run whose first step answers a next state goes on from there. -/
theorem run_succ_of_next {M : Host.Core} {s t : M.State} (h : M.step s = .next t) (k : Nat) :
    M.run (k + 1) s = M.run k t := by
  rw [Host.Core.run, h]

/-- A run of lane writes of one register, by induction on their list (R41). -/
theorem run_laneWrites (i : RegIdx) (b : Block) (order : List (Fin 4)) (rest : List HostAction)
    {s : State} (herr : s.err = false) (hpending : s.pending = laneWrites i b order ++ rest) :
    Host.Core.run Sys2Proof.core order.length s = .next { s with
      x := s.x.set i (withLanes b order s.x[i]), xv := s.xv.set i (withValid order s.xv[i])
      pending := rest, cp := s.cp + order.length } := by
  induction order generalizing s with
  | nil =>
    have hrest : s.pending = rest := hpending
    simp [Host.Core.run, withLanes, withValid, ← hrest]
  | cons j order ih =>
    have hslot : (Fin.ofNat 1024 (4 * i.val + j.val)).val = 4 * i.val + j.val :=
      Nat.mod_eq_of_lt (by omega)
    have hfirst := step_laneWrite hslot hpending herr
    have hlater := ih (s := { s with
      pending := laneWrites i b order ++ rest, cp := s.cp + 1 }.setLane i j (laneOf b j.val)) herr rfl
    refine ((run_succ_of_next (M := Sys2Proof.core) hfirst _).trans hlater).trans ?_
    simp [State.reg, withLanes_cons, withValid_cons, Nat.add_assoc, Nat.add_comm 1]

/-- Settles O16: an order of all four lanes writes each, and four steps perform it. -/
theorem fourLaneWritesMakeABlock : Obligations.FourLaneWritesMakeABlock := by
  intro s i b order rest hperm herr hpending
  have hall : ∀ j, j ∈ order := fun j => hperm.mem_iff.mpr (by revert j; decide)
  have hlen : order.length = 4 := hperm.length_eq
  have hrun := run_laneWrites i b order rest herr hpending
  rwa [hlen, withLanes_of_all hall, withValid_of_all hall] at hrun

end Sys2Proof.Machine
end

section
/-! PROOFS. Buffer memory as data: a run of bytes reads back what was written, the canonical form
determines the memory, and a buffer's blocks are its bytes (20_memory.md R60, R62, R63, R65, R66,
42_horner.md R160). -/

namespace Sys2Proof.Machine

/-! ### A run of bytes reads back -/

/-- The mask of the low `n` bits is `2^n - 1`, at `n = w` too, where the shift gives zero. -/
theorem toNat_lowMask {w n : Nat} (hn : n ≤ w) : (1#w <<< n - 1#w).toNat = 2 ^ n - 1 := by
  rw [← BitVec.twoPow_eq]
  obtain rfl | hlt := Nat.eq_or_lt_of_le hn
  · have hzero : BitVec.twoPow n n = 0#n := by
      rw [BitVec.twoPow_eq]; exact BitVec.shiftLeft_eq_zero (Nat.le_refl n)
    rw [hzero, BitVec.zero_sub, BitVec.neg_one_eq_allOnes, BitVec.toNat_allOnes]
  · have hone : (1#w).toNat = 1 := Nat.mod_eq_of_lt (Nat.one_lt_two_pow (by omega))
    have hle : 1#w ≤ BitVec.twoPow w n := by
      rw [BitVec.le_def, BitVec.toNat_twoPow_of_lt hlt, hone]
      exact Nat.one_le_two_pow
    rw [BitVec.toNat_sub_of_le hle, BitVec.toNat_twoPow_of_lt hlt, hone]

/-- Keeping `n` bytes is masking the low `8n` bits (R63, R218). -/
theorem keepBytes_eq_and_lowMask (v : Block) {n : Nat} (hn : n ≤ 16) :
    keepBytes v n = v &&& (1#128 <<< (8 * n) - 1#128) := by
  refine block_ext fun k hk => ?_
  rw [byteOf_keepBytes v n k hk]
  refine BitVec.eq_of_getLsbD_eq fun j hj => ?_
  have hmask : (1#128 <<< (8 * n) - 1#128).getLsbD (8 * k + j) = decide (8 * k + j < 8 * n) := by
    rw [← BitVec.testBit_toNat, toNat_lowMask (by omega), Nat.testBit_two_pow_sub_one]
  have hiff : 8 * k + j < 8 * n ↔ k < n := by omega
  by_cases hkn : k < n <;> simp [byteOf, hj, hmask, hiff, hkn]

/-- The Block read where `n` bytes were written: those bytes, the rest zero (R62, R63). -/
theorem Memory.readBlock_writeBlock (m : Memory) (a n : Nat) (v : Block) (hm : m.sorted) :
    (m.writeBlock a n v).readBlock a n = keepBytes v n := by
  refine congrArg leBlock (List.map_congr_left fun k hk => ?_)
  have hkn : k < n := List.mem_range.mp hk
  rw [Memory.read_writeBlock m a n _ v hm, if_pos (by omega), Nat.add_sub_cancel_left]

/-- Settles O18: the bytes read back are the bytes kept, and a write stays inside its run. -/
theorem memReadReturnsWhatMemWriteStored : Obligations.MemReadReturnsWhatMemWriteStored := by
  intro m a n v hm _ hn
  refine ⟨?_, fun x hx => ?_⟩
  · rw [Memory.readBlock_writeBlock m a n v hm.1, keepBytes_eq_and_lowMask v hn]
  · rw [Memory.read_writeBlock m a n x v hm.1, if_neg hx]

/-! ### The canonical form determines the memory -/

theorem Memory.wf_of_cons {c : Host.Cell} {m : Memory} (h : Memory.wf (c :: m)) : m.wf :=
  ⟨h.1.of_cons, fun d hd => h.2 d (List.mem_cons_of_mem c hd)⟩

/-- A canonical memory lists the cells whose address reads as their byte, unless that is the byte of
the unlisted addresses. -/
theorem Memory.mem_iff_read {m : Memory} (hm : m.wf) (c : Host.Cell) :
    c ∈ m ↔ m.read c.1 = c.2 ∧ c.2 ≠ Memory.unlisted := by
  obtain ⟨a, v⟩ := c
  induction m with
  | nil => simp only [Memory.read, List.not_mem_nil, false_iff, not_and, not_not]; exact Eq.symm
  | cons d m ih =>
    obtain ⟨b, w⟩ := d
    have hw : w ≠ Memory.unlisted := (hm.2 (b, w) List.mem_cons_self).2
    by_cases hab : b = a
    · subst hab
      have hnot : (b, v) ∉ m := fun h => Nat.lt_irrefl b (List.rel_of_pairwise_cons hm.1 h)
      simp only [Memory.read, if_true, List.mem_cons, hnot, or_false, Prod.mk.injEq, true_and]
      constructor
      · rintro rfl; exact ⟨rfl, hw⟩
      · rintro ⟨rfl, -⟩; rfl
    · simpa [Memory.read, hab, Ne.symm hab] using ih (Memory.wf_of_cons hm)

/-- Settles O20: both memories list the same cells, and in rising order of their addresses. -/
theorem equalReadsEqualMemories : Obligations.EqualReadsEqualMemories := by
  intro m m' hm hm' hread
  have : Std.Irrefl fun c d : Host.Cell => c.1 < d.1 := ⟨fun c => Nat.lt_irrefl c.1⟩
  have : Std.Antisymm fun c d : Host.Cell => c.1 < d.1 :=
    ⟨fun _ _ hcd hdc => absurd hcd (Nat.lt_asymm hdc)⟩
  refine hm.1.eq_of_mem_iff hm'.1 fun c => ?_
  rw [Memory.mem_iff_read hm, Memory.mem_iff_read hm', hread]

/-! ### The blocks of a buffer -/

/-- Block `k` of a buffer of `n` bytes reads the sixteen bytes at `16k`, or what is left of them
(R65, R66). -/
theorem Memory.getD_bufferBlocks (m : Memory) (a : Nat) {n k : Nat} (hk : k < (n + 15) / 16) :
    (m.bufferBlocks a n).getD k 0#128 = m.readBlock (a + 16 * k) (min 16 (n - 16 * k)) := by
  have hlen : (m.fullBlocks a (n / 16)).length = n / 16 := by simp [Memory.fullBlocks]
  obtain hfull | htail := Nat.lt_or_ge k (n / 16)
  · have hmin : min 16 (n - 16 * k) = 16 := by omega
    rw [Memory.bufferBlocks, List.getD_append _ _ _ _ (by rwa [hlen]), hmin]
    simp [Memory.fullBlocks, List.getD_eq_getElem?_getD, hfull]
  · obtain rfl : k = n / 16 := by omega
    have hrest : n % 16 ≠ 0 := by omega
    have hmin : min 16 (n - 16 * (n / 16)) = n % 16 := by omega
    rw [Memory.bufferBlocks, List.getD_append_right _ _ _ _ (Nat.le_of_eq hlen), hlen, hmin,
      if_neg hrest, Nat.sub_self, List.getD_cons_zero]

/-- Settles O21: each block is a run of the buffer's bytes, and a Block read from memory has them. -/
theorem bufferBlocksAreTheBytes : Obligations.BufferBlocksAreTheBytes := by
  intro m a n
  refine ⟨Memory.length_bufferBlocks m a n, fun k i hk hi => ?_⟩
  have hiff : i < min 16 (n - 16 * k) ↔ 16 * k + i < n := by omega
  rw [Memory.getD_bufferBlocks m a hk, Memory.byteOf_readBlock _ _ _ _ hi, if_congr hiff rfl rfl,
    Nat.add_assoc]

end Sys2Proof.Machine
end

section
/-! PROOFS. What the commands do with buffer memory: only the codec writes it, and only inside
`[DST, DST+LEN)`; no command reads a byte outside `[SRC, SRC+LEN)` (20_memory.md R65, R68, R70). -/

namespace Sys2Proof.Machine

/-! ### Only the codec writes memory -/

theorem writesOutput_iff (i : Instr) : writesOutput i = true ↔ i = .ctrenc ∨ i = .ctrdec := by
  cases i <;> simp [writesOutput]

/-- A codec command past its checks has its buffers apart (R70). -/
theorem apart_of_noFault {i : Instr} {s : State} (hcodec : i = .ctrenc ∨ i = .ctrdec)
    (hpass : firstFailure i s = .noFault) : Apart s := by
  obtain ⟨-, -, -, hmeet⟩ := (firstFailure_codec_iff hcodec).mp hpass
  exact apart_of_not_meet hmeet

/-- Memory after the codec: the output inside `[DST, DST+LEN)`, the old bytes outside (R65, R215). -/
theorem read_codec_mem (dec : Bool) {s : State} (hm : s.mem.wf) (hap : Apart s) (a : Nat) :
    (codec dec s).mem.read a =
      if s.dst.toNat ≤ a ∧ a < s.dst.toNat + s.len.toNat then outByte s (a - s.dst.toNat)
      else s.mem.read a := by
  obtain ⟨-, -, hread, -⟩ := codecPhases_spec (dec := dec) hm.1 hap
  rw [codec_mem, hread]

/-- The same of a codec command past its checks. -/
theorem read_effect_codec {i : Instr} {s : State} (hcodec : i = .ctrenc ∨ i = .ctrdec)
    (hm : s.mem.wf) (hpass : firstFailure i s = .noFault) (a : Nat) :
    (effect i s).mem.read a =
      if s.dst.toNat ≤ a ∧ a < s.dst.toNat + s.len.toNat then outByte s (a - s.dst.toNat)
      else s.mem.read a := by
  have hap := apart_of_noFault hcodec hpass
  obtain rfl | rfl := hcodec
  · exact read_codec_mem false hm hap a
  · exact read_codec_mem true hm hap a

/-- Byte `k` of the output after a codec command past its checks (R215). -/
theorem read_effect_codec_output {i : Instr} {s : State} (hcodec : i = .ctrenc ∨ i = .ctrdec)
    (hm : s.mem.wf) (hpass : firstFailure i s = .noFault) {k : Nat} (hk : k < s.len.toNat) :
    (effect i s).mem.read (s.dst.toNat + k) = outByte s k := by
  rw [read_effect_codec hcodec hm hpass, if_pos (by omega), Nat.add_sub_cancel_left]

/-- A command without an output buffer leaves memory alone, its fault included (R68, R242). -/
theorem exec_keeps_mem {i : Instr} {s t : State} (h : exec i s = .next t)
    (hout : writesOutput i = false) : t.mem = s.mem := by
  obtain ⟨-, rfl⟩ | ⟨-, rfl⟩ := exec_cases h
  · exact effect_mem i s hout
  · rfl

/-- No command changes a byte outside the output range (R65). -/
theorem exec_keeps_bytes_outside {i : Instr} {s t : State} (h : exec i s = .next t) (hm : s.mem.wf)
    {a : Nat} (ha : ¬ (s.dst.toNat ≤ a ∧ a < s.dst.toNat + s.len.toNat)) :
    t.mem.read a = s.mem.read a := by
  cases hout : writesOutput i with
  | false => rw [exec_keeps_mem h hout]
  | true =>
    obtain ⟨hpass, rfl⟩ | ⟨-, rfl⟩ := exec_cases h
    · rw [read_effect_codec ((writesOutput_iff i).mp hout) hm hpass, if_neg ha]
    · rfl

/-- Settles O58: every command answers; without an output buffer memory stays, with one the bytes
outside it. -/
theorem onlyTheCodecWritesMemory : Obligations.OnlyTheCodecWritesMemory := by
  intro i s
  obtain ⟨t, ht⟩ := exec_answers_next i s
  refine ⟨t, ht, fun henc hdec => ?_, fun hm a => exec_keeps_bytes_outside ht hm⟩
  exact exec_keeps_mem ht
    (Bool.eq_false_iff.mpr fun h => ((writesOutput_iff i).mp h).elim henc hdec)

/-- The counter a codec command ends with (R213, R219). -/
theorem codecPhases_ctr (dec : Bool) {s : State} (hm : s.mem.wf) (hap : Apart s) :
    (codecPhases dec s).ctr = ctrAdd (initialCounter (s.reg Reg.tag)) (s.len.toNat / 16) := by
  obtain ⟨hctr, -⟩ := codecPhases_spec (dec := dec) hm.1 hap
  exact hctr

/-! ### What a command writes over a changed memory -/

/-- `s` with buffer memory `m`. -/
def State.withMem (s : State) (m : Memory) : State := { s with mem := m }

section

variable (s : State) (m : Memory)

@[simp] theorem withMem_mem : (s.withMem m).mem = m := rfl
@[simp] theorem withMem_src : (s.withMem m).src = s.src := rfl
@[simp] theorem withMem_len : (s.withMem m).len = s.len := rfl
@[simp] theorem withMem_withMem (m' : Memory) : (s.withMem m).withMem m' = s.withMem m' := rfl
@[simp] theorem withMem_self : s.withMem s.mem = s := rfl
@[simp] theorem reg_withMem (r : RegIdx) : (s.withMem m).reg r = s.reg r := rfl
@[simp] theorem table_withMem : (s.withMem m).table = s.table := rfl

theorem setReg_withMem (r : RegIdx) (v : Block) :
    (s.withMem m).setReg r v = (s.setReg r v).withMem m := rfl

theorem setReg_setReg_withMem (a b : RegIdx) (v w : Block) :
    ((s.withMem m).setReg a v).setReg b w = ((s.setReg a v).setReg b w).withMem m := rfl

theorem buildEntry_withMem (h : Block) (n k : Nat) :
    buildEntry h n (s.withMem m) k = (buildEntry h n s k).withMem m := by
  unfold buildEntry; split <;> rfl

/-- BLDTBL reads no memory (R151). -/
theorem buildTable_withMem (h : Block) (n : Nat) :
    buildTable h n (s.withMem m) = (buildTable h n s).withMem m :=
  List.foldl_hom (State.withMem · m) fun s k => buildEntry_withMem s m h n k

/-- `ACC` written unless the buffer is empty: by FOLDH, FOLDB and, after `CTR`, by the codec
(R161, R172, R219, R222). -/
def writeAcc (acc : Block) (s : State) : State :=
  if s.len = 0#32 then s else s.setReg Reg.acc acc

theorem writeAcc_withMem (acc : Block) :
    writeAcc acc (s.withMem m) = (writeAcc acc s).withMem m := by
  by_cases hlen : s.len = 0#32 <;> simp [writeAcc, hlen, setReg_withMem]

theorem effect_foldh : effect .foldh s = writeAcc (hornerAcc s) s := rfl

theorem effect_foldb (w : Nat) : effect (.foldb w) s = writeAcc (batchedAcc w s) s := rfl

/-- The codec writes the registers and the memory its phases end with (R215, R219). -/
theorem codec_eq_writeAcc (dec : Bool) :
    codec dec s =
      (writeAcc (codecPhases dec s).acc (s.setReg Reg.ctr (codecPhases dec s).ctr)).withMem
        (codecPhases dec s).mem := by
  rw [← writeAcc_withMem, ← setReg_withMem]; rfl

end

/-! ### Only the input buffer is read -/

/-- No check reads memory (R244). -/
theorem firstFailure_withMem (i : Instr) (s : State) (m : Memory) :
    firstFailure i (s.withMem m) = firstFailure i s := by
  cases i <;> rfl

/-- Without an input buffer a command's effect is the same whatever memory holds (R43). -/
theorem effect_withMem_of_no_input {i : Instr} (hin : readsInput i = false) (s : State) (m : Memory) :
    effect i (s.withMem m) = (effect i s).withMem m := by
  cases i with
  | foldh => cases hin
  | foldb _ => cases hin
  | ctrenc => cases hin
  | ctrdec => cases hin
  | bldtbl n => exact buildTable_withMem s m (s.reg Reg.h) n
  | clmulw _ _ => exact setReg_setReg_withMem s m _ _ _ _
  | clmac _ _ => exact setReg_setReg_withMem s m _ _ _ _
  | _ => exact setReg_withMem s m _ _

/-- The memory `m` holds what the input buffer of `s` holds (R65). -/
def InputAgrees (s : State) (m : Memory) : Prop :=
  ∀ k, k < s.len.toNat → m.read (s.src.toNat + k) = s.mem.read (s.src.toNat + k)

section

variable {s : State} {m : Memory} (h : InputAgrees s m)
include h

/-- A run of bytes inside the input buffer makes the same Block. -/
theorem InputAgrees.readBlock {o r : Nat} (hr : o + r ≤ s.len.toNat) :
    m.readBlock (s.src.toNat + o) r = s.mem.readBlock (s.src.toNat + o) r := by
  refine Memory.readBlock_congr fun k hk => ?_
  rw [Nat.add_assoc]
  exact h (o + k) (by omega)

theorem InputAgrees.fullBlocks :
    m.fullBlocks s.src.toNat (s.len.toNat / 16) =
      s.mem.fullBlocks s.src.toNat (s.len.toNat / 16) := by
  refine List.map_congr_left fun k hk => h.readBlock ?_
  have hk' := List.mem_range.mp hk
  omega

theorem InputAgrees.tail :
    m.readBlock (s.src.toNat + 16 * (s.len.toNat / 16)) (s.len.toNat % 16) =
      s.mem.readBlock (s.src.toNat + 16 * (s.len.toNat / 16)) (s.len.toNat % 16) :=
  h.readBlock (by omega)

theorem hornerAcc_withMem : hornerAcc (s.withMem m) = hornerAcc s := by
  simp only [hornerAcc, Memory.bufferBlocks, withMem_mem, withMem_src, withMem_len,
    reg_withMem, h.fullBlocks, h.tail]

theorem batchedAcc_withMem (w : Nat) : batchedAcc w (s.withMem m) = batchedAcc w s := by
  simp only [batchedAcc, groupsAcc, withMem_mem, withMem_src, withMem_len, reg_withMem,
    table_withMem, h.fullBlocks, h.tail]

theorem ctBlock_withMem (dec : Bool) {k : Nat} (hk : k < s.len.toNat / 16) :
    ctBlock dec (s.withMem m) k = ctBlock dec s k := by
  have hin : inBlock (s.withMem m) k = inBlock s k := h.readBlock (by omega)
  have hks : ksBlock (s.withMem m) k = ksBlock s k := rfl
  rw [ctBlock, ctBlock, hin, hks]

theorem ctTail_withMem (dec : Bool) : ctTail dec (s.withMem m) = ctTail dec s := by
  have hin : inTail (s.withMem m) = inTail s := h.tail
  have hks : ksBlock (s.withMem m) (s.len.toNat / 16) = ksBlock s (s.len.toNat / 16) := rfl
  rw [ctTail, ctTail, withMem_len, hin, hks]

theorem ctBlocks_withMem (dec : Bool) : ctBlocks dec (s.withMem m) = ctBlocks dec s := by
  have hfull : (List.range (s.len.toNat / 16)).map (ctBlock dec (s.withMem m)) =
      (List.range (s.len.toNat / 16)).map (ctBlock dec s) :=
    List.map_congr_left fun k hk => ctBlock_withMem h dec (List.mem_range.mp hk)
  rw [ctBlocks, ctBlocks, withMem_len, ctTail_withMem h, hfull]

/-- The bytes the codec puts out are made of the input's (R215). -/
theorem outByte_withMem {k : Nat} (hk : k < s.len.toNat) :
    outByte (s.withMem m) k = outByte s k :=
  congrArg (· ^^^ byteOf (ksBlock s (k / 16)) (k % 16)) (h k hk)

/-- The codec's registers are made of the input: the counter of its length, the accumulator of its
ciphertext blocks (R215, R219). -/
theorem codec_withMem (dec : Bool) (hm : s.mem.wf) (hm' : m.wf) (hap : Apart s) :
    codec dec (s.withMem m) = (codec dec s).withMem (codec dec (s.withMem m)).mem := by
  have hap' : Apart (s.withMem m) := hap
  have hm'' : (s.withMem m).mem.wf := hm'
  have hctr : (codecPhases dec (s.withMem m)).ctr = (codecPhases dec s).ctr := by
    rw [codecPhases_ctr dec hm'' hap', codecPhases_ctr dec hm hap, reg_withMem, withMem_len]
  have hacc : (codecPhases dec (s.withMem m)).acc = (codecPhases dec s).acc := by
    rw [codecPhases_acc hm''.1 hap', codecPhases_acc hm.1 hap, ctBlocks_withMem h, withMem_len,
      table_withMem, reg_withMem]
  rw [codec_eq_writeAcc (s.withMem m), codec_eq_writeAcc s, hctr, hacc, setReg_withMem,
    writeAcc_withMem, withMem_withMem, withMem_withMem, withMem_mem]

/-- Past its checks a command's effect on all but memory is the same from both memories. -/
theorem effect_withMem {i : Instr} (hm : s.mem.wf) (hm' : m.wf)
    (hpass : firstFailure i s = .noFault) :
    effect i (s.withMem m) = (effect i s).withMem (effect i (s.withMem m)).mem := by
  cases hin : readsInput i with
  | false => rw [effect_withMem_of_no_input hin, withMem_mem]
  | true =>
    cases i with
    | foldh => rw [effect_foldh, effect_foldh, hornerAcc_withMem h, writeAcc_withMem, withMem_mem]
    | foldb w => rw [effect_foldb, effect_foldb, batchedAcc_withMem h, writeAcc_withMem, withMem_mem]
    | ctrenc => exact codec_withMem h false hm hm' (apart_of_noFault (.inl rfl) hpass)
    | ctrdec => exact codec_withMem h true hm hm' (apart_of_noFault (.inr rfl) hpass)
    | _ => cases hin

end

/-- Settles O59: the checks read no memory, so both runs fault alike or both take effect. -/
theorem onlyTheInputBufferIsRead : Obligations.OnlyTheInputBufferIsRead := by
  intro i s m hm hm' (h : InputAgrees s m)
  have hsame := firstFailure_withMem i s m
  by_cases hpass : firstFailure i s = .noFault
  · have hpass' := hsame.trans hpass
    refine ⟨effect i s, effect i (s.withMem m), exec_of_noFault hpass, exec_of_noFault hpass',
      ?_, ?_⟩
    · show effect i s = (effect i (s.withMem m)).withMem (effect i s).mem
      rw [effect_withMem h hm hm' hpass, withMem_withMem, withMem_self]
    · intro hcodec _ k hk
      rw [read_effect_codec_output hcodec hm hpass hk, ← outByte_withMem h hk]
      exact (read_effect_codec_output (s := s.withMem m) hcodec hm' hpass' hk).symm
  · exact ⟨_, _, exec_of_fault hpass, exec_of_fault (hsame ▸ hpass), hsame ▸ rfl,
      fun _ herr => Bool.noConfusion herr⟩

end Sys2Proof.Machine
end

section
/-! PROOFS. Encoding and decoding: a row is selected by its operation code with the unused fields
zero, so the rows exclude one another, decoding inverts encoding both ways, and the illegal words are
the two kinds of R99 (30_encoding.md R90 to R99, R103). -/

namespace Sys2Proof

/-! ### The rows of the opcode table -/

/-- The operation code of a row (R95). -/
def OpRow.op (r : OpRow) : BitVec 8 := r.pattern.extractLsb' 24 8

/-- The bits below the operation code that a row's command does not use (R91, R95). -/
def OpRow.unused (r : OpRow) : Word := r.mask &&& 0x00FFFFFF#32

/-- A mask acts field by field (R90). -/
theorem packWord_and (op : BitVec 8) (rd rs1 rs2 : BitVec 5) (imm : BitVec 9) (m : Word) :
    packWord op rd rs1 rs2 imm &&& m =
      packWord (op &&& m.extractLsb' 24 8) (rd &&& m.extractLsb' 19 5) (rs1 &&& m.extractLsb' 14 5)
        (rs2 &&& m.extractLsb' 9 5) (imm &&& m.extractLsb' 0 9) := by
  rw [← packWord_fields (packWord op rd rs1 rs2 imm &&& m)]
  simp only [BitVec.extractLsb'_and, op_packWord, rd_packWord, rs1_packWord, rs2_packWord,
    imm_packWord]

/-- The operation code of a word, the other fields cleared (R90). -/
theorem and_opMask (w : Word) :
    w &&& 0xFF000000#32 = packWord (w.extractLsb' 24 8) 0#5 0#5 0#5 0#9 := by
  have hop : ∀ op : BitVec 8, op &&& 0xFF#8 = op := fun _ => BitVec.and_allOnes
  conv_lhs => rw [← packWord_fields w, packWord_and]
  simp [hop]

/-- A row's mask covers the operation code and the unused fields (R91, R95). -/
theorem mask_of_mem : ∀ r ∈ opcodeTable,
    r.mask = 0xFF000000#32 ||| r.unused ∧ r.mask.extractLsb' 24 8 = BitVec.allOnes 8 := by
  decide

/-- A row's pattern is the operation code alone (R91, R95). -/
theorem pattern_of_mem : ∀ r ∈ opcodeTable,
    r.pattern = packWord r.op 0#5 0#5 0#5 0#9 ∧ r.pattern &&& 0x00FFFFFF#32 = 0#32 := by
  decide

/-- A word selects a row exactly if it has the row's operation code and the unused fields zero (R91). -/
theorem selects_iff {r : OpRow} (hr : r ∈ opcodeTable) (w : Word) :
    r.selects w = true ↔ w.extractLsb' 24 8 = r.op ∧ w &&& r.unused = 0#32 := by
  obtain ⟨hmask, hcover⟩ := mask_of_mem r hr
  obtain ⟨hpattern, hlow⟩ := pattern_of_mem r hr
  rw [OpRow.selects, beq_iff_eq]
  constructor
  · intro h
    exact ⟨extractLsb'_of_mask h 24 8 hcover, by rw [OpRow.unused, ← BitVec.and_assoc, h, hlow]⟩
  · rintro ⟨hop, hclear⟩
    rw [hmask, BitVec.and_or_distrib_left, hclear, BitVec.or_zero, and_opMask, hop, hpattern]

/-- No two rows have the same operation code (R91, R95). -/
theorem op_injOn_opcodeTable {r r' : OpRow} (hr : r ∈ opcodeTable) (hr' : r' ∈ opcodeTable)
    (h : r.op = r'.op) : r = r' :=
  List.inj_on_of_nodup_map (f := OpRow.op) (by decide) hr hr' h

/-- The rows are pairwise exclusive: both have the operation code of the word (R91). -/
theorem eq_of_selects_both {r r' : OpRow} (hr : r ∈ opcodeTable) (hr' : r' ∈ opcodeTable) {w : Word}
    (h : r.selects w = true) (h' : r'.selects w = true) : r = r' := by
  obtain ⟨hop, -⟩ := (selects_iff hr w).mp h
  obtain ⟨hop', -⟩ := (selects_iff hr' w).mp h'
  exact op_injOn_opcodeTable hr hr' (hop.symm.trans hop')

theorem opAssigned_iff (w : Word) :
    opAssigned w = true ↔ ∃ r ∈ opcodeTable, w.extractLsb' 24 8 = r.op := by
  simp only [opAssigned, List.any_eq_true, beq_iff_eq, OpRow.op, eq_comm (a := w.extractLsb' 24 8)]

/-! ### What the decoder answers -/

/-- A word with a row's operation code is the row's command, or has a bit set that the command does not
use (R91, R96, R99). -/
theorem decode_of_op {r : OpRow} (hr : r ∈ opcodeTable) {w : Word}
    (hop : w.extractLsb' 24 8 = r.op) :
    decode w = if w &&& r.unused = 0#32 then .ok (r.build w) else .error .unusedField := by
  unfold decode
  split
  next r' hfind =>
    have hr' := List.mem_of_find?_eq_some hfind
    obtain ⟨hop', hclear⟩ := (selects_iff hr' w).mp (by simpa using List.find?_some hfind)
    obtain rfl := op_injOn_opcodeTable hr hr' (hop.symm.trans hop')
    rw [if_pos hclear]
  next hfind =>
    have hbit : w &&& r.unused ≠ 0#32 := fun hclear =>
      List.find?_eq_none.mp hfind r hr ((selects_iff hr w).mpr ⟨hop, hclear⟩)
    rw [if_neg hbit, if_pos ((opAssigned_iff w).mpr ⟨r, hr, hop⟩)]

/-- A word with the operation code of no row is illegal by its operation code (R98, R99). -/
theorem decode_of_reserved {w : Word} (h : ∀ r ∈ opcodeTable, w.extractLsb' 24 8 ≠ r.op) :
    decode w = .error .reservedOp := by
  have hnone : opcodeTable.find? (fun r => r.selects w) = none :=
    List.find?_eq_none.mpr fun r hr hsel => h r hr ((selects_iff hr w).mp hsel).1
  have hop : ¬ opAssigned w = true := fun ha =>
    let ⟨r, hr, hop⟩ := (opAssigned_iff w).mp ha
    h r hr hop
  simp [decode, hnone, hop]

/-- A word that selects a row is the row's command (R96). -/
theorem decode_of_selects {r : OpRow} (hr : r ∈ opcodeTable) {w : Word}
    (hsel : r.selects w = true) : decode w = .ok (r.build w) := by
  obtain ⟨hop, hclear⟩ := (selects_iff hr w).mp hsel
  rw [decode_of_op hr hop, if_pos hclear]

/-- A word is a command exactly if it selects a row (R91, R96). -/
theorem exists_decode_iff (w : Word) :
    (∃ i, decode w = .ok i) ↔ ∃ r ∈ opcodeTable, r.selects w = true := by
  constructor
  · rintro ⟨i, h⟩
    obtain ⟨r, hr, hsel, -⟩ := exists_row_of_decode h
    exact ⟨r, hr, hsel⟩
  · rintro ⟨r, hr, hsel⟩
    exact ⟨r.build w, decode_of_selects hr hsel⟩

theorem decode_eq_reservedOp_iff (w : Word) :
    decode w = .error .reservedOp ↔ ∀ r ∈ opcodeTable, w.extractLsb' 24 8 ≠ r.op := by
  refine ⟨fun h r hr hop => ?_, decode_of_reserved⟩
  rw [decode_of_op hr hop] at h
  split at h <;> cases h

theorem decode_eq_unusedField_iff (w : Word) :
    decode w = .error .unusedField ↔
      ∃ r ∈ opcodeTable, w.extractLsb' 24 8 = r.op ∧ w &&& r.unused ≠ 0#32 := by
  constructor
  · intro h
    by_cases hop : ∃ r ∈ opcodeTable, w.extractLsb' 24 8 = r.op
    · obtain ⟨r, hr, hop⟩ := hop
      refine ⟨r, hr, hop, fun hclear => ?_⟩
      rw [decode_of_op hr hop, if_pos hclear] at h
      cases h
    · rw [decode_of_reserved fun r hr h => hop ⟨r, hr, h⟩] at h
      cases h
  · rintro ⟨r, hr, hop, hbit⟩
    rw [decode_of_op hr hop, if_neg hbit]

/-! ### Decoding the word of a command -/

/-- The row of a command (R95). -/
def rowOf : Instr → OpRow
  | .bxor _ _ _ => opcodeTable[0]
  | .clmul _ _ _ _ => opcodeTable[1]
  | .clmulw _ _ => opcodeTable[2]
  | .clmac _ _ => opcodeTable[3]
  | .gfred _ => opcodeTable[4]
  | .gfmul _ _ _ => opcodeTable[5]
  | .bldtbl _ => opcodeTable[6]
  | .foldh => opcodeTable[7]
  | .foldb _ => opcodeTable[8]
  | .aesenc _ _ _ => opcodeTable[9]
  | .aesenclast _ _ _ => opcodeTable[10]
  | .aesblk _ _ => opcodeTable[11]
  | .ctrinc _ => opcodeTable[12]
  | .ctrenc => opcodeTable[13]
  | .ctrdec => opcodeTable[14]

theorem rowOf_mem (i : Instr) : rowOf i ∈ opcodeTable := by
  cases i <;> exact List.getElem_mem _

/-- A part of the `imm` field that starts at bit 0 (R90, R92). -/
theorem low_imm_packWord (op : BitVec 8) (rd rs1 rs2 : BitVec 5) (imm : BitVec 9) {n : Nat}
    (hn : n ≤ 9) : (packWord op rd rs1 rs2 imm).extractLsb' 0 n = imm.setWidth n := by
  refine BitVec.eq_of_getLsbD_eq fun k hk => ?_
  simp [getLsbD_packWord, hk, show k < 9 by omega]

theorem fieldSel_packWord (op : BitVec 8) (rd rs1 rs2 : BitVec 5) (sel : BitVec 2) :
    fieldSel (packWord op rd rs1 rs2 (sel.setWidth 9)) = sel := by
  rw [fieldSel, low_imm_packWord _ _ _ _ _ (by decide), BitVec.setWidth_setWidth_of_le _ (by decide),
    BitVec.setWidth_eq]

theorem fieldCount_packWord (op : BitVec 8) (rd rs1 rs2 : BitVec 5) {n : Nat} (h1 : 1 ≤ n)
    (h8 : n ≤ 8) : fieldCount (packWord op rd rs1 rs2 (BitVec.ofNat 9 (n - 1))) = n := by
  rw [fieldCount, low_imm_packWord _ _ _ _ _ (by decide), BitVec.toNat_setWidth, BitVec.toNat_ofNat]
  omega

theorem fieldImm_packWord (op : BitVec 8) (rd rs1 rs2 : BitVec 5) {k : Nat} (hk : k ≤ 511) :
    fieldImm (packWord op rd rs1 rs2 (BitVec.ofNat 9 k)) = k := by
  rw [fieldImm, imm_packWord, BitVec.toNat_ofNat]
  omega

/-- The selector sets none of the bits `imm[8:2]` (R92). -/
theorem setWidth_sel_and (sel : BitVec 2) : sel.setWidth 9 &&& 0x1FC#9 = 0#9 := by
  revert sel; decide

/-- A count in 1..8, less one, sets none of the bits `imm[8:3]` (R92). -/
theorem ofNat_count_and {n : Nat} (h8 : n ≤ 8) : BitVec.ofNat 9 (n - 1) &&& 0x1F8#9 = 0#9 := by
  revert n; decide


/-- The word of a well-formed command selects the command's row (R91, R92, R95). -/
theorem selects_encode {i : Instr} (h : i.wellFormed = true) :
    (rowOf i).selects (encode i) = true := by
  rw [OpRow.selects, beq_iff_eq]
  cases i with
  | bldtbl n | foldb n =>
    have hn : 1 ≤ n ∧ n ≤ 8 := of_decide_eq_true h
    simp +decide [rowOf, opcodeTable, fieldRows, hashRows, encode, packWord_and,
      ofNat_count_and hn.2]
  | _ =>
    simp +decide [rowOf, opcodeTable, fieldRows, hashRows, cipherRows, encode, packWord_and,
      setWidth_sel_and]

/-- The row of a well-formed command reads the command back from its word (R90, R92, R93). -/
theorem build_encode {i : Instr} (h : i.wellFormed = true) : (rowOf i).build (encode i) = i := by
  cases i with
  | bldtbl n =>
    have hn : 1 ≤ n ∧ n ≤ 8 := of_decide_eq_true h
    exact congrArg Instr.bldtbl (fieldCount_packWord _ _ _ _ hn.1 hn.2)
  | foldb n =>
    have hn : 1 ≤ n ∧ n ≤ 8 := of_decide_eq_true h
    exact congrArg Instr.foldb (fieldCount_packWord _ _ _ _ hn.1 hn.2)
  | ctrinc k => exact congrArg Instr.ctrinc (fieldImm_packWord _ _ _ _ (of_decide_eq_true h))
  | _ =>
    simp [rowOf, opcodeTable, fieldRows, hashRows, cipherRows, encode, fieldRd_packWord,
      fieldRs1_packWord, fieldRs2_packWord, fieldSel_packWord]

/-- Settles O2: the word of a command selects the command's row, which reads every operand back. -/
theorem decodeInvertsEncode : Obligations.DecodeInvertsEncode := by
  intro i hwf
  rw [decode_of_selects (rowOf_mem i) (selects_encode hwf), build_encode hwf]

/-! ### The command of an accepted word -/

/-- The operand of BLDTBL and FOLDB is in 1..8 whatever the word (R92). -/
theorem fieldCount_mem_range (w : Word) : 1 ≤ fieldCount w ∧ fieldCount w ≤ 8 := by
  have hlt := (w.extractLsb' 0 3).isLt
  unfold fieldCount
  omega

/-- The operand of CTRINC is in 0..511 whatever the word (R92). -/
theorem fieldImm_le (w : Word) : fieldImm w ≤ 511 :=
  Nat.le_of_lt_succ (w.extractLsb' 0 9).isLt

/-- Every row builds well-formed commands only (R92, R93). -/
theorem wellFormed_build {r : OpRow} (hr : r ∈ opcodeTable) (w : Word) :
    (r.build w).wellFormed = true := by
  revert r
  simp [opcodeTable, fieldRows, hashRows, cipherRows, Instr.wellFormed, fieldCount_mem_range,
    fieldImm_le]

/-- Settles O3: the command is built by a row the word selects. -/
theorem encodeInvertsDecode : Obligations.EncodeInvertsDecode := by
  intro w i hdec
  obtain ⟨r, hr, -, rfl⟩ := exists_row_of_decode hdec
  exact ⟨wellFormed_build hr w, encode_of_decode hdec⟩

/-! ### The table as the obligations write it out -/

/-- Settles O4: the pairs are the rows of the table, and the rows exclude one another. -/
theorem rowsSelectAtMostOneCommand : Obligations.RowsSelectAtMostOneCommand := by
  unfold Obligations.RowsSelectAtMostOneCommand
  intro rows w
  have htable : rows = opcodeTable.map fun r => (r.pattern, r.mask) := rfl
  simp only [htable, List.mem_map, exists_exists_and_eq_and, forall_exists_index, and_imp,
    forall_apply_eq_imp_iff₂]
  constructor
  · simp only [exists_decode_iff, OpRow.selects, beq_iff_eq]
  · intro r hr r' hr' hsel hsel'
    rw [eq_of_selects_both hr hr' (beq_iff_eq.mpr hsel) (beq_iff_eq.mpr hsel')]

/-- Settles O1: each word is decoded. -/
theorem workedWordsDecode : Obligations.WorkedWordsDecode := by
  unfold Obligations.WorkedWordsDecode
  decide

end Sys2Proof

namespace Sys2Proof.Machine

/-- While `ERR = 0` an illegal word is recorded and its fault latched, nothing else (R99, R241). -/
theorem issueCommand_of_illegal {w : Word} {s : State} {e : IllegalWord} (herr : s.err = false)
    (hdec : decode w = .error e) :
    issueCommand w s = .next (latched .illegal w { s with lastcmd := w }) := by
  simp [issueCommand, acceptCommand, herr, hdec, raiseFault, latched]

/-- Settles O5: a word with the operation code of a row is illegal by the row's unused fields, any other
by its operation code. -/
theorem illegalWordsLatchIllegal : Obligations.IllegalWordsLatchIllegal := by
  unfold Obligations.IllegalWordsLatchIllegal
  intro unused
  have htable : unused = opcodeTable.map fun r => (r.op, r.unused) := by decide
  simp only [htable, List.mem_map, exists_exists_and_eq_and, forall_exists_index, and_imp,
    forall_apply_eq_imp_iff₂]
  refine ⟨decode_eq_reservedOp_iff, decode_eq_unusedField_iff, by decide, ?_⟩
  intro s w e herr hdec
  rw [perform_portWrite_cmd, issueCommand_of_illegal herr hdec]

end Sys2Proof.Machine
end

section
/-! PROOFS. A bit vector as a polynomial over GF(2): xor is addition, appending and shifting are
multiplications by powers of `X` (00_scope.md R9, R11). -/

namespace Sys2Proof.Machine

open Polynomial

/-- A bit as an element of GF(2). -/
def gf2 (b : Bool) : ZMod 2 := if b then 1 else 0

@[simp] theorem gf2_false : gf2 false = 0 := rfl
@[simp] theorem gf2_true : gf2 true = 1 := rfl

theorem gf2_xor (a b : Bool) : gf2 (a ^^ b) = gf2 a + gf2 b := by
  revert a b; decide

theorem gf2_and (a b : Bool) : gf2 (a && b) = gf2 a * gf2 b := by
  revert a b; decide

theorem gf2_injective : Function.Injective gf2 := by
  unfold Function.Injective; decide

theorem gf2_foldr_xor (l : List Bool) : gf2 (l.foldr xor false) = (l.map gf2).sum := by
  induction l with
  | nil => rfl
  | cons b l ih => rw [List.foldr_cons, gf2_xor, ih, List.map_cons, List.sum_cons]

section

variable {n : Nat} (v w : BitVec n)

/-- Coefficient `k` is bit `k` (R11). -/
theorem coeff_polyOf (k : Nat) : (polyOf v).coeff k = gf2 (v.getLsbD k) := by
  have hterm : ∀ j, (if v.getLsbD j then X ^ j else 0 : (ZMod 2)[X]).coeff k =
      if k = j then gf2 (v.getLsbD j) else 0 := by
    intro j
    cases v.getLsbD j <;> simp [coeff_X_pow]
  rw [polyOf, finsetSum_coeff]
  simp only [hterm, Finset.sum_ite_eq, Finset.mem_range]
  split
  · rfl
  · rw [BitVec.getLsbD_of_ge v k (by omega), gf2_false]

theorem polyOf_injective : Function.Injective (polyOf (n := n)) := by
  intro v w h
  refine BitVec.eq_of_getLsbD_eq fun k _ => gf2_injective ?_
  rw [← coeff_polyOf, h, coeff_polyOf]

theorem degree_polyOf_lt : (polyOf v).degree < n := by
  rw [degree_lt_iff_coeff_zero]
  intro k hk
  rw [coeff_polyOf, BitVec.getLsbD_of_ge v k hk, gf2_false]

/-- Modulo a polynomial of degree `n` or more a bit vector is already a residue. -/
theorem eq_of_mk_polyOf_eq {v w : BitVec n} {p : (ZMod 2)[X]} (hp : n ≤ p.degree)
    (h : AdjoinRoot.mk p (polyOf v) = AdjoinRoot.mk p (polyOf w)) : v = w := by
  have hlt : (polyOf v - polyOf w).degree < n :=
    (degree_sub_le _ _).trans_lt (max_lt (degree_polyOf_lt v) (degree_polyOf_lt w))
  have hzero : polyOf v - polyOf w = 0 :=
    eq_zero_of_dvd_of_degree_lt (AdjoinRoot.mk_eq_mk.mp h) (hlt.trans_le hp)
  exact polyOf_injective (sub_eq_zero.mp hzero)

@[simp] theorem polyOf_zero : polyOf (0#n) = 0 := by
  ext k; simp [coeff_polyOf]

@[simp] theorem polyOf_xor : polyOf (v ^^^ w) = polyOf v + polyOf w := by
  ext k; simp [coeff_polyOf, gf2_xor]

theorem polyOf_one : polyOf (1#(n + 1)) = 1 := by
  ext k; cases k <;> simp [coeff_polyOf, coeff_one]

theorem polyOf_setWidth {m : Nat} (h : n ≤ m) : polyOf (v.setWidth m) = polyOf v := by
  ext k
  rw [coeff_polyOf, coeff_polyOf, BitVec.getLsbD_setWidth]
  by_cases hk : k < m
  · simp [hk]
  · simp [hk, BitVec.getLsbD_of_ge v k (by omega)]

/-- The high part stands above the low part (R9). -/
theorem polyOf_append {m : Nat} (hi : BitVec n) (lo : BitVec m) :
    polyOf (hi ++ lo) = polyOf hi * X ^ m + polyOf lo := by
  ext k
  rw [coeff_add, coeff_mul_X_pow', coeff_polyOf, coeff_polyOf, coeff_polyOf, BitVec.getLsbD_append]
  by_cases hk : k < m
  · simp [hk, Nat.not_le.mpr hk]
  · simp [hk, Nat.not_lt.mp hk]

/-- A product with `X ^ k`: the bits shifted left, and above them the bits a left shift loses. -/
theorem polyOf_mul_X_pow {m k : Nat} (hn : m + k = n) :
    polyOf v * X ^ k = polyOf (v >>> m) * X ^ n + polyOf (v <<< k) := by
  ext j
  rw [coeff_add, coeff_mul_X_pow', coeff_mul_X_pow', coeff_polyOf, coeff_polyOf, coeff_polyOf,
    BitVec.getLsbD_shiftLeft, BitVec.getLsbD_ushiftRight]
  by_cases hjn : j < n
  · by_cases hjk : j < k
    · simp [hjn, hjk, Nat.not_le.mpr hjk, Nat.not_le.mpr hjn]
    · simp [hjn, hjk, Nat.not_lt.mp hjk, Nat.not_le.mpr hjn]
  · have hkj : k ≤ j := by omega
    have hsub : m + (j - n) = j - k := by omega
    simp [hjn, Nat.not_lt.mp hjn, hkj, hsub]

end

end Sys2Proof.Machine
end

section
/-! PROOFS. The carry-less multiplier multiplies polynomials over GF(2), 64 by 64 bits and 128 by 128
bits (40_field_arith.md R120, R123). -/

namespace Sys2Proof.Machine

open Polynomial

/-- The multiplicand shifted to one bit of the multiplier: no bit leaves the Block (R120). -/
theorem polyOf_shifted_half (b : Half) {i : Nat} (hi : i < 64) :
    polyOf (b.setWidth 128 <<< i) = X ^ i * polyOf b := by
  have hlost : (b.setWidth 128) >>> (128 - i) = 0#128 := by
    refine BitVec.eq_of_getLsbD_eq fun k hk => ?_
    simp [BitVec.getLsbD_of_ge b (128 - i + k) (by omega)]
  have hshift := polyOf_mul_X_pow (b.setWidth 128) (m := 128 - i) (k := i) (by omega)
  simp only [hlost, polyOf_zero, zero_mul, zero_add] at hshift
  rw [← hshift, polyOf_setWidth b (show 64 ≤ 128 by omega), mul_comm]

/-- The sum over the low `n` bits of the multiplier (R120). -/
theorem polyOf_clmulBits (a b : Half) {n : Nat} (hn : n ≤ 64) :
    polyOf (clmulBits a b n) =
      (∑ i ∈ Finset.range n, if a.getLsbD i then X ^ i else 0) * polyOf b := by
  induction n with
  | zero => simp [clmulBits]
  | succ n ih =>
    rw [clmulBits, polyOf_xor, ih (by omega), Finset.sum_range_succ, add_mul]
    cases a.getLsbD n
    · simp
    · simp [polyOf_shifted_half b (show n < 64 by omega)]

/-- `clmul64` is the product of polynomials (R120). -/
theorem polyOf_clmul64 (a b : Half) : polyOf (clmul64 a b) = polyOf a * polyOf b :=
  polyOf_clmulBits a b le_rfl

/-- Bit `k` of the product is the convolution of the operands' bits: coefficient `k` of the product of
the two polynomials (R120). -/
theorem getLsbD_clmul64 (a b : Half) (k : Nat) : (clmul64 a b).getLsbD k =
    ((List.range (k + 1)).map fun i => a.getLsbD i && b.getLsbD (k - i)).foldr xor false := by
  apply gf2_injective
  rw [gf2_foldr_xor, ← coeff_polyOf, polyOf_clmul64, coeff_mul,
    Finset.Nat.sum_antidiagonal_eq_sum_range_succ
      (fun i j => (polyOf a).coeff i * (polyOf b).coeff j)]
  simp only [coeff_polyOf, List.map_map, Function.comp_def, gf2_and]
  rw [← List.sum_toFinset _ List.nodup_range, List.toFinset_range]

/-- Settles O32: every bit is the convolution, whatever its number. -/
theorem clmul64Bits : Obligations.ClmulBits := fun a b k _ => getLsbD_clmul64 a b k

/-- A Block is its two halves (R9). -/
theorem hiHalf_append_loHalf (v : Block) : hiHalf v ++ loHalf v = v := by
  ext i hi
  rw [BitVec.getElem_append]
  split
  · simp [loHalf, BitVec.getLsbD_eq_getElem hi]
  · simp [hiHalf, show 64 + (i - 64) = i by omega, BitVec.getLsbD_eq_getElem hi]

theorem polyOf_eq_halves (v : Block) :
    polyOf v = polyOf (hiHalf v) * X ^ 64 + polyOf (loHalf v) := by
  conv_lhs => rw [← hiHalf_append_loHalf v]
  exact polyOf_append _ _

theorem polyOf_clmulMid (a b : Block) : polyOf (clmulMid a b) =
    polyOf (loHalf a) * polyOf (hiHalf b) + polyOf (hiHalf a) * polyOf (loHalf b) := by
  simp [clmulMid, polyOf_clmul64]

theorem polyOf_clmulLow (a b : Block) : polyOf (clmulLow a b) =
    polyOf (loHalf a) * polyOf (loHalf b) + polyOf (clmulMid a b <<< 64) := by
  rw [clmulLow, polyOf_xor, polyOf_clmul64]

theorem polyOf_clmulHigh (a b : Block) : polyOf (clmulHigh a b) =
    polyOf (hiHalf a) * polyOf (hiHalf b) + polyOf (clmulMid a b >>> 64) := by
  rw [clmulHigh, polyOf_xor, polyOf_clmul64]

/-- The two halves of the wide product: what the middle term adds to them is its product with `X ^ 64`
(R123). -/
theorem polyOf_clmulHigh_clmulLow (a b : Block) :
    polyOf (clmulHigh a b) * X ^ 128 + polyOf (clmulLow a b) = polyOf a * polyOf b := by
  have hmid : polyOf (clmulMid a b) * X ^ 64 =
      polyOf (clmulMid a b >>> 64) * X ^ 128 + polyOf (clmulMid a b <<< 64) := by
    rw [polyOf_mul_X_pow (m := 64) (k := 64) (clmulMid a b) rfl]
  rw [polyOf_clmulMid] at hmid
  rw [polyOf_clmulHigh, polyOf_clmulLow, polyOf_eq_halves a, polyOf_eq_halves b]
  linear_combination -hmid

/-- Settles O33: schoolbook multiplication of the halves. -/
theorem wideProductIsThePolynomialProduct : Obligations.WideProductIsThePolynomialProduct :=
  polyOf_clmulHigh_clmulLow

end Sys2Proof.Machine
end

section
/-! PROOFS. The reduction divides by `X ^ 128` modulo the field polynomial (40_field_arith.md R126,
R127). -/

namespace Sys2Proof.Machine

open Polynomial

/-- `POLY` is `K` above a one (R9, R126). -/
theorem polyOf_poly : polyOf Config.poly = polyOf reduceConst * X ^ 64 + 1 := by
  have hlo : loHalf Config.poly = 1#64 := by decide
  rw [polyOf_eq_halves, hlo, polyOf_one]; rfl

theorem fieldPoly_def : fieldPoly = X ^ 128 + polyOf Config.poly := by
  unfold fieldPoly; rfl

/-- The field polynomial in terms of `K` (R11, R126). -/
theorem fieldPoly_eq : fieldPoly = X ^ 128 + polyOf reduceConst * X ^ 64 + 1 := by
  rw [fieldPoly_def, polyOf_poly, add_assoc]

theorem polyOf_swap64 (v : Block) :
    polyOf (swap64 v) = polyOf (loHalf v) * X ^ 64 + polyOf (hiHalf v) :=
  polyOf_append _ _

/-- One round divides by `X ^ 64`: it adds the multiple of the field polynomial that clears the low
half, and shifts (R126, R127). -/
theorem polyOf_reduceRound (v : Block) :
    polyOf (reduceRound v) * X ^ 64 = polyOf v + polyOf (loHalf v) * fieldPoly := by
  have htwice : polyOf (loHalf v) + polyOf (loHalf v) = 0 := CharTwo.add_self_eq_zero _
  rw [reduceRound, polyOf_xor, polyOf_swap64, polyOf_clmul64, polyOf_eq_halves v, fieldPoly_eq]
  linear_combination -htwice

/-- Two rounds divide by `X ^ 128` (R127). -/
theorem polyOf_gfReduce (ph pl : Block) : polyOf (gfReduce ph pl) * X ^ 128 =
    polyOf ph * X ^ 128 + polyOf pl +
      (polyOf (loHalf pl) + polyOf (loHalf (reduceRound pl)) * X ^ 64) * fieldPoly := by
  have hfirst := polyOf_reduceRound pl
  have hsecond := polyOf_reduceRound (reduceRound pl)
  rw [gfReduce, polyOf_xor]
  linear_combination hfirst + X ^ 64 * hsecond

@[simp] theorem reduceRound_zero : reduceRound 0#128 = 0#128 := by decide

/-- Reduction is linear (R127 (a)). -/
theorem gfReduce_xor (ph ph' pl pl' : Block) :
    gfReduce (ph ^^^ ph') (pl ^^^ pl') = gfReduce ph pl ^^^ gfReduce ph' pl' := by
  rw [gfReduce, reduceRound_xor, reduceRound_xor]
  exact xor_regroup _ _ _ _

/-- A Block that stands above a zero low half is its own reduction (R127 (b)). -/
theorem gfReduce_zero_right (ph : Block) : gfReduce ph 0#128 = ph := by
  simp [gfReduce]

/-- Settles O34: what two rounds add to the product is a multiple of the field polynomial. -/
theorem reduceDividesByX128 : Obligations.ReduceDividesByX128 := by
  refine ⟨fun ph pl => ?_, degree_polyOf_lt, gfReduce_xor, gfReduce_zero_right, by decide⟩
  rw [polyOf_gfReduce, add_sub_cancel_left]
  exact dvd_mul_left _ _

end Sys2Proof.Machine
end

section
/-! PROOFS. The Blocks in GF(2)[X] / p, a Block `v` standing for `v * X ^ (-128)`: under this injective
reading xor is addition, the field multiply is multiplication and `POLY` is one
(40_field_arith.md R127, R129, R131). -/

namespace Sys2Proof.Machine

open Polynomial

/-- The inverse of `X` modulo the field polynomial, whose constant term is one (R127). -/
noncomputable def xInverse : (ZMod 2)[X] := X ^ 127 + polyOf reduceConst * X ^ 63

theorem X_mul_xInverse : X * xInverse = fieldPoly + 1 := by
  have htwice : (1 : (ZMod 2)[X]) + 1 = 0 := CharTwo.add_self_eq_zero _
  unfold xInverse
  rw [fieldPoly_eq]
  linear_combination -htwice

/-- What a Block stands for in GF(2)[X] / p: its residue times `X ^ (-128)` (R127). -/
noncomputable def fieldElem (v : Block) : AdjoinRoot fieldPoly :=
  AdjoinRoot.mk fieldPoly (polyOf v * xInverse ^ 128)

theorem mk_X_mul_xInverse : AdjoinRoot.mk fieldPoly X * AdjoinRoot.mk fieldPoly xInverse = 1 := by
  rw [← map_mul, X_mul_xInverse, map_add, AdjoinRoot.mk_self, zero_add, map_one]

/-- Multiplying by `X ^ 128` leaves the residue of the Block itself. -/
theorem mk_X_pow_mul_fieldElem (v : Block) :
    AdjoinRoot.mk fieldPoly (X ^ 128) * fieldElem v = AdjoinRoot.mk fieldPoly (polyOf v) := by
  rw [fieldElem, map_mul, map_pow, map_pow, mul_left_comm, ← mul_pow, mk_X_mul_xInverse, one_pow,
    mul_one]

/-- A class times `X ^ 128` determines the class. -/
theorem eq_of_mk_X_pow_mul_eq {a b : AdjoinRoot fieldPoly}
    (h : AdjoinRoot.mk fieldPoly (X ^ 128) * a = AdjoinRoot.mk fieldPoly (X ^ 128) * b) : a = b := by
  have hunit : IsUnit (AdjoinRoot.mk fieldPoly (X ^ 128)) := by
    rw [map_pow]; exact (IsUnit.of_mul_eq_one _ mk_X_mul_xInverse).pow 128
  exact hunit.mul_left_cancel h

theorem degree_fieldPoly : fieldPoly.degree = (128 : ℕ) := by
  have hlow : (polyOf Config.poly).degree < (X ^ 128 : (ZMod 2)[X]).degree := by
    rw [degree_X_pow]; exact degree_polyOf_lt Config.poly
  rw [fieldPoly_def, degree_add_eq_left_of_degree_lt hlow, degree_X_pow]

theorem fieldElem_injective : Function.Injective fieldElem := by
  intro v w h
  apply eq_of_mk_polyOf_eq degree_fieldPoly.ge
  rw [← mk_X_pow_mul_fieldElem, h, mk_X_pow_mul_fieldElem]

@[simp] theorem fieldElem_zero : fieldElem 0#128 = 0 := by simp [fieldElem]

@[simp] theorem fieldElem_xor (v w : Block) : fieldElem (v ^^^ w) = fieldElem v + fieldElem w := by
  simp [fieldElem, add_mul]

/-- `POLY` and `X ^ 128` are the same residue, so `POLY` stands for one (R131). -/
@[simp] theorem fieldElem_poly : fieldElem Config.poly = 1 := by
  apply eq_of_mk_X_pow_mul_eq
  rw [mk_X_pow_mul_fieldElem, mul_one, eq_comm, AdjoinRoot.mk_eq_mk, CharTwo.sub_eq_add]
  rw [← fieldPoly_def]

/-- The field multiply is multiplication (R129). -/
@[simp] theorem fieldElem_gfmul (a b : Block) :
    fieldElem (gfmul a b) = fieldElem a * fieldElem b := by
  have hproduct : AdjoinRoot.mk fieldPoly (X ^ 128) * AdjoinRoot.mk fieldPoly (polyOf (gfmul a b)) =
      AdjoinRoot.mk fieldPoly (polyOf a) * AdjoinRoot.mk fieldPoly (polyOf b) := by
    rw [← map_mul, ← map_mul, mul_comm (X ^ 128), gfmul, polyOf_gfReduce,
      polyOf_clmulHigh_clmulLow, map_add, map_mul _ _ fieldPoly, AdjoinRoot.mk_self,
      mul_zero, add_zero]
  apply eq_of_mk_X_pow_mul_eq
  apply eq_of_mk_X_pow_mul_eq
  rw [mk_X_pow_mul_fieldElem, hproduct, ← mk_X_pow_mul_fieldElem a, ← mk_X_pow_mul_fieldElem b]
  ring

/-! ### The laws of R131 -/

theorem gfmul_comm (a b : Block) : gfmul a b = gfmul b a :=
  fieldElem_injective (by rw [fieldElem_gfmul, fieldElem_gfmul, mul_comm])

theorem gfmul_assoc (a b c : Block) : gfmul (gfmul a b) c = gfmul a (gfmul b c) :=
  fieldElem_injective (by simp only [fieldElem_gfmul, mul_assoc])

theorem gfmul_xor_left (a b c : Block) : gfmul (a ^^^ b) c = gfmul a c ^^^ gfmul b c :=
  fieldElem_injective (by simp only [fieldElem_gfmul, fieldElem_xor, add_mul])

@[simp] theorem gfmul_zero (a : Block) : gfmul a 0#128 = 0#128 :=
  fieldElem_injective (by rw [fieldElem_gfmul, fieldElem_zero, mul_zero])

theorem gfmul_poly (a : Block) : gfmul a Config.poly = a :=
  fieldElem_injective (by rw [fieldElem_gfmul, fieldElem_poly, mul_one])

/-- Settles O35: the laws of a commutative ring, read back through `fieldElem`. -/
theorem fieldMultiplyLaws : Obligations.FieldMultiplyLaws :=
  ⟨gfmul_comm, gfmul_assoc, gfmul_xor_left, gfmul_zero, gfmul_poly⟩

end Sys2Proof.Machine
end

section
/-! PROOFS. The field arithmetic commands: with their registers valid they complete with the effect R121
to R130 give, and nothing else changes (40_field_arith.md). -/

namespace Sys2Proof.Machine

/-- A command without buffers completes when its registers are valid (R244, R251). -/
theorem exec_of_regs {i : Instr} {s : State} (hin : readsInput i = false)
    (hout : writesOutput i = false) (hvalid : AllValid s (validitySet s i)) :
    exec i s = .next (effect i s) :=
  exec_of_noFault (firstFailure_eq_noFault_of_regs hin hout hvalid)

theorem allValid_pair {s : State} {a b : RegIdx} (ha : s.xv[a] = 0xF#4) (hb : s.xv[b] = 0xF#4) :
    AllValid s [a, b] := by
  simp [ha, hb]

/-- Settles O26: the sources are all that is checked. -/
theorem bxorResult : Obligations.BxorResult := fun _ _ _ _ h1 h2 =>
  exec_of_regs rfl rfl (allValid_pair h1 h2)

/-- Settles O27: the sources are all that is checked. -/
theorem clmulResult : Obligations.ClmulResult := fun _ _ _ _ _ h1 h2 =>
  exec_of_regs rfl rfl (allValid_pair h1 h2)

/-- Settles O28: the sources are all that is checked, `PL` and `PH` are not. -/
theorem clmulwResult : Obligations.ClmulwResult := fun _ _ _ h1 h2 =>
  exec_of_regs rfl rfl (allValid_pair h1 h2)

/-- Settles O29: the sources are checked, and `PL` and `PH` with them. -/
theorem clmacResult : Obligations.ClmacResult := by
  intro rs1 rs2 s h1 h2 hpl hph
  have hvalid : AllValid s [rs1, rs2, Reg.pl, Reg.ph] := by
    simp only [allValid_cons]
    exact ⟨h1, h2, hpl, hph, allValid_nil s⟩
  exact exec_of_regs rfl rfl hvalid

/-- Settles O30: `PL` and `PH` are all that is checked. -/
theorem gfredResult : Obligations.GfredResult := fun _ _ hpl hph =>
  exec_of_regs rfl rfl (allValid_pair hpl hph)

/-- Settles O31: the sources are all that is checked, `PL` and `PH` are not. -/
theorem gfmulResult : Obligations.GfmulResult := fun _ _ _ _ h1 h2 =>
  exec_of_regs rfl rfl (allValid_pair h1 h2)

end Sys2Proof.Machine
end

section
/-! PROOFS. The powers of the hash key, and the table BLDTBL leaves: an entry below `n` by its power, an
entry from `n` on cleared, every other register kept (41_powers_table.md R150, R151). -/

namespace Sys2Proof.Machine

theorem hashPower_succ (h : Block) (k : Nat) : hashPower h (k + 1) = gfmul (hashPower h k) h := rfl

/-- The exponents add: `hashPower h k` is `H^(k+1)` (R150). -/
theorem hashPower_add_add_one (h : Block) (a b : Nat) :
    hashPower h (a + b + 1) = gfmul (hashPower h a) (hashPower h b) := by
  induction b with
  | zero => rfl
  | succ b ih =>
    calc hashPower h (a + (b + 1) + 1)
        = gfmul (hashPower h (a + b + 1)) h := hashPower_succ h (a + b + 1)
      _ = gfmul (gfmul (hashPower h a) (hashPower h b)) h := by rw [ih]
      _ = gfmul (hashPower h a) (hashPower h (b + 1)) := gfmul_assoc _ _ _

/-- Settles O37: the recursion of `hashPower`, and the addition of exponents by associativity. -/
theorem powersMultiply : Obligations.PowersMultiply := fun h =>
  ⟨rfl, hashPower_succ h, hashPower_add_add_one h⟩

section

variable (h : Block) {n : Nat} (s : State) {r : RegIdx}

/-- `T[0..n-1]` after BLDTBL `n` (R151). -/
theorem buildTable_of_lt_count (hn : n ≤ 8) (hr : r.val < n) :
    (buildTable h n s).x[r] = hashPower h r.val ∧ (buildTable h n s).xv[r] = 0xF#4 := by
  have htable : r.val < 8 := hr.trans_le hn
  constructor
  · exact (reg_buildTable h n s r).trans (by rw [if_pos htable, if_pos hr])
  · rw [xv_buildTable, if_pos htable, if_pos hr]

/-- `T[n..7]` after BLDTBL `n` (R151). -/
theorem buildTable_of_count_le (hr : n ≤ r.val) (htable : r.val < 8) :
    (buildTable h n s).x[r] = 0#128 ∧ (buildTable h n s).xv[r] = 0#4 := by
  have hcleared : ¬ r.val < n := hr.not_gt
  constructor
  · exact (reg_buildTable h n s r).trans (by rw [if_pos htable, if_neg hcleared])
  · rw [xv_buildTable, if_pos htable, if_neg hcleared]

/-- The registers outside the table after BLDTBL (R151). -/
theorem buildTable_of_eight_le (hr : 8 ≤ r.val) :
    (buildTable h n s).x[r] = s.x[r] ∧ (buildTable h n s).xv[r] = s.xv[r] := by
  have houtside : ¬ r.val < 8 := hr.not_gt
  exact ⟨(reg_buildTable h n s r).trans (if_neg houtside),
    (xv_buildTable h n s r).trans (if_neg houtside)⟩

/-- A filled entry after the first is the one before it times `H` (R150, R151). -/
theorem buildTable_entry_eq_gfmul_pred (hn : n ≤ 8) (hpos : 1 ≤ r.val) (hr : r.val < n) :
    (buildTable h n s).x[r] = gfmul (buildTable h n s).x[r - 1] h := by
  have hpred : (r - 1).val = r.val - 1 :=
    Fin.val_sub_one_of_ne_zero (Fin.pos_iff_ne_zero.mp hpos)
  obtain ⟨hentry, -⟩ := buildTable_of_lt_count h s hn hr
  obtain ⟨hbefore, -⟩ := buildTable_of_lt_count h s (r := r - 1) hn (by omega)
  rw [hentry, hbefore, hpred, ← hashPower_succ, Nat.sub_add_cancel hpos]

end

/-- Settles O36: `H` is all that is checked, and the table is then read entry by entry. -/
theorem bldtblResult : Obligations.BldtblResult := by
  intro n s hpos hn hvalid
  have hregs : AllValid s [Reg.h] := (allValid_cons s _ _).mpr ⟨hvalid, allValid_nil s⟩
  refine ⟨buildTable (s.reg Reg.h) n s, exec_of_regs rfl rfl hregs, buildTable_frame _ n s,
    (buildTable_of_lt_count _ s (r := 0) hn hpos).1, ?_, ?_, ?_, ?_⟩
  · exact fun k hk hkn => buildTable_entry_eq_gfmul_pred _ s hn hk hkn
  · exact fun k hkn => (buildTable_of_lt_count _ s hn hkn).2
  · exact fun k hnk hk => buildTable_of_count_le _ s hnk hk
  · exact fun k hk => buildTable_of_eight_le _ s hk

end Sys2Proof.Machine
end

section
/-! PROOFS. FOLDH: it completes when `ACC`, `H` and the input buffer are usable, leaves the Horner fold
of the buffer in `ACC` and nothing else changed; a buffer cut at a multiple of sixteen bytes folds in two
commands as in one (42_horner.md R160 to R162). -/

namespace Sys2Proof.Machine

/-! ### FOLDH completes -/

/-- A command that only reads a buffer completes when its registers are valid and its input is usable
(R244, R251). -/
theorem exec_of_input {i : Instr} {s : State} (hin : readsInput i = true)
    (hout : writesOutput i = false) (hvalid : AllValid s (validitySet s i))
    (husable : InputUsable s) :
    exec i s = .next (effect i s) :=
  exec_of_noFault (firstFailure_eq_noFault_of_input hin hout hvalid husable)

/-- An empty input buffer has no address to wrap or to be unreadable (R61). -/
theorem inputUsable_of_empty {s : State} (hlen : s.len = 0#32) : InputUsable s := by
  have hzero : s.len.toNat = 0 := by rw [hlen]; rfl
  exact ⟨by omega, fun k hk => by omega⟩

theorem validitySet_foldh_of_empty {s : State} (hlen : s.len = 0#32) : validitySet s .foldh = [] :=
  if_pos hlen

/-- With `ACC` and `H` valid, the validity set of FOLDH passes whatever `LEN` is (R161). -/
theorem allValid_foldh {s : State} (hvalid : AllValid s [Reg.acc, Reg.h]) :
    AllValid s (validitySet s .foldh) := by
  by_cases hlen : s.len = 0#32
  · rw [validitySet_foldh_of_empty hlen]; exact allValid_nil s
  · rwa [show validitySet s .foldh = [Reg.acc, Reg.h] from if_neg hlen]

/-- FOLDH of a usable buffer with `ACC` and `H` valid, an empty buffer among them (R161). -/
theorem exec_foldh {s : State} (hvalid : AllValid s [Reg.acc, Reg.h]) (husable : InputUsable s) :
    exec .foldh s = .next (effect .foldh s) :=
  exec_of_input rfl rfl (allValid_foldh hvalid) husable

/-- FOLDH of an empty buffer is a no-op whatever is valid (R161). -/
theorem exec_foldh_of_empty {s : State} (hlen : s.len = 0#32) : exec .foldh s = .next s := by
  have hvalid : AllValid s (validitySet s .foldh) := by
    rw [validitySet_foldh_of_empty hlen]; exact allValid_nil s
  rw [exec_of_input rfl rfl hvalid (inputUsable_of_empty hlen), effect_foldh, writeAcc, if_pos hlen]

/-- Settles O38: an empty buffer has no checks to fail; else the checks pass and `ACC` is written. -/
theorem foldhResult : Obligations.FoldhResult := by
  refine ⟨fun s => exec_foldh_of_empty, fun s hlen hacc hh husable => ?_⟩
  rw [exec_foldh (allValid_pair hacc hh) husable, effect_foldh, writeAcc, if_neg hlen]
  rfl

/-! ### What FOLDH leaves in the registers -/

/-- Folding no blocks leaves the accumulator: `HornerFold(s, h, empty) = s` (R160). -/
theorem hornerAcc_of_empty {s : State} (hlen : s.len = 0#32) : hornerAcc s = s.reg Reg.acc := by
  rw [hornerAcc, hlen]; rfl

/-- `ACC` after FOLDH is the fold, for an empty buffer too (R161). -/
theorem reg_acc_foldh (s : State) : (effect .foldh s).reg Reg.acc = hornerAcc s := by
  rw [effect_foldh, writeAcc]
  split
  next hlen => exact (hornerAcc_of_empty hlen).symm
  next => rw [reg_setReg, if_pos rfl]

/-- FOLDH keeps the hash key (R161). -/
theorem reg_h_foldh (s : State) : (effect .foldh s).reg Reg.h = s.reg Reg.h := by
  have hne : Reg.acc ≠ Reg.h := by decide
  rw [effect_foldh, writeAcc]
  split
  · rfl
  · rw [reg_setReg, if_neg hne]

/-- FOLDH clears no register, so what was valid stays valid (R27, R161). -/
theorem allValid_effect_foldh {s : State} {rs : List RegIdx} (hvalid : AllValid s rs) :
    AllValid (effect .foldh s) rs := by
  intro r hr
  obtain ⟨-, hxv⟩ | ⟨-, hxv⟩ | ⟨⟨_, hbldtbl, -⟩, -, -⟩ := regFate_effect .foldh s r
  · exact hxv.trans (hvalid r hr)
  · exact hxv
  · cases hbldtbl

/-! ### A buffer cut in two -/

/-- The full blocks of a buffer, cut after any of them (R65). -/
theorem Memory.fullBlocks_add (m : Memory) (a j k : Nat) :
    m.fullBlocks a (j + k) = m.fullBlocks a j ++ m.fullBlocks (a + 16 * j) k := by
  simp only [Memory.fullBlocks, List.range_add, List.map_append, List.map_map, Function.comp_def,
    Nat.mul_add, Nat.add_assoc]

/-- The blocks of a buffer, cut at a multiple of sixteen bytes (R160, R162). -/
theorem Memory.bufferBlocks_add (m : Memory) (a : Nat) {n1 : Nat} (n2 : Nat) (hwhole : n1 % 16 = 0) :
    m.bufferBlocks a (n1 + n2) = m.bufferBlocks a n1 ++ m.bufferBlocks (a + n1) n2 := by
  obtain ⟨j, rfl⟩ := Nat.dvd_of_mod_eq_zero hwhole
  have hdiv : (16 * j + n2) / 16 = j + n2 / 16 := by omega
  have haddr : a + 16 * (j + n2 / 16) = a + 16 * j + 16 * (n2 / 16) := by omega
  have hfirst : m.bufferBlocks a (16 * j) = m.fullBlocks a j := by simp [Memory.bufferBlocks]
  rw [hfirst, Memory.bufferBlocks, Memory.bufferBlocks, hdiv, haddr, Nat.mul_add_mod,
    Memory.fullBlocks_add, List.append_assoc]

/-- Folding two runs of blocks one after the other is folding them together (R160, R162). -/
theorem hornerFold_append (acc h : Block) (bs cs : List Block) :
    hornerFold acc h (bs ++ cs) = hornerFold (hornerFold acc h bs) h cs := List.foldl_append

/-- A buffer inside a usable one is usable (R61 (a), (c)). -/
theorem inputUsable_of_inside {s t : State} (h : InputUsable s) (hreadable : t.readable = s.readable)
    (hstart : s.src.toNat ≤ t.src.toNat)
    (hend : t.src.toNat + t.len.toNat ≤ s.src.toNat + s.len.toNat) : InputUsable t := by
  obtain ⟨hrange, hread⟩ := h
  refine ⟨hend.trans hrange, fun k hk => ?_⟩
  have haddr : s.src.toNat + (t.src.toNat - s.src.toNat + k) = t.src.toNat + k := by omega
  rw [hreadable, ← haddr]
  exact hread _ (by omega)

/-! ### Two FOLDH commands -/

/-- `s` with the input buffer moved by the host to `n` bytes at `a` (R34). -/
def State.withInput (s : State) (a n : Word) : State := { s with src := a, len := n }

section

variable (s : State) (a n : Word)

@[simp] theorem withInput_src : (s.withInput a n).src = a := rfl
@[simp] theorem withInput_len : (s.withInput a n).len = n := rfl
@[simp] theorem withInput_readable : (s.withInput a n).readable = s.readable := rfl

theorem hornerAcc_withInput : hornerAcc (s.withInput a n) =
    hornerFold (s.reg Reg.acc) (s.reg Reg.h) (s.mem.bufferBlocks a.toNat n.toNat) := rfl

end

/-- The state the first FOLDH starts from: the buffer's first `n1` bytes (R162). -/
def firstChunk (s : State) (n1 : Word) : State := s.withInput s.src n1

/-- The state the second FOLDH starts from: what the first left, the input moved past `n1` (R162). -/
def secondChunk (s : State) (n1 n2 : Word) : State :=
  (effect .foldh (firstChunk s n1)).withInput (s.src + n1) n2

section

variable {s : State} {n1 n2 : Word} (husable : InputUsable s)
  (hlen : s.len.toNat = n1.toNat + n2.toNat)
include husable hlen

/-- The second chunk starts inside the address space, unless it is empty. -/
theorem toNat_src_add (hn2 : n2 ≠ 0#32) : (s.src + n1).toNat = s.src.toNat + n1.toNat := by
  obtain ⟨hrange, -⟩ := husable
  have hpos : n2.toNat ≠ 0 := fun h => hn2 (BitVec.eq_of_toNat_eq h)
  rw [BitVec.toNat_add, Nat.mod_eq_of_lt (by omega)]

theorem inputUsable_firstChunk : InputUsable (firstChunk s n1) := by
  refine inputUsable_of_inside husable rfl (Nat.le_refl _) ?_
  simp only [firstChunk, withInput_src, withInput_len]
  omega

/-- The second chunk's address may have wrapped to 0, but only if the chunk is empty (R61). -/
theorem inputUsable_secondChunk : InputUsable (secondChunk s n1 n2) := by
  by_cases hn2 : n2 = 0#32
  · exact inputUsable_of_empty hn2
  · have hsrc := toNat_src_add husable hlen hn2
    have hreadable : (secondChunk s n1 n2).readable = s.readable := by
      rw [secondChunk, withInput_readable, effect_frame]; rfl
    refine inputUsable_of_inside husable hreadable ?_ ?_ <;>
      simp only [secondChunk, withInput_src, withInput_len] <;> omega

/-- The blocks of a usable buffer are those of its two chunks, the first of whole blocks (R162). -/
theorem bufferBlocks_chunks (hwhole : n1.toNat % 16 = 0) (m : Memory) :
    m.bufferBlocks s.src.toNat s.len.toNat =
      m.bufferBlocks s.src.toNat n1.toNat ++ m.bufferBlocks (s.src + n1).toNat n2.toNat := by
  rw [hlen, Memory.bufferBlocks_add m _ _ hwhole]
  by_cases hn2 : n2 = 0#32
  · subst hn2; rfl
  · rw [toNat_src_add husable hlen hn2]

/-- The second chunk, folded from the accumulator the first left, gives the fold of the whole
(R162). -/
theorem hornerAcc_secondChunk (hwhole : n1.toNat % 16 = 0) :
    hornerAcc (secondChunk s n1 n2) = hornerAcc s := by
  rw [secondChunk, hornerAcc_withInput, reg_acc_foldh, reg_h_foldh, effect_mem .foldh _ rfl,
    hornerAcc, hornerAcc, bufferBlocks_chunks husable hlen hwhole, hornerFold_append]
  rfl

end

/-- Settles O42: each of the three FOLDH completes, and the two folds make the one. -/
theorem chunkedHornerFold : Obligations.ChunkedHornerFold := by
  intro s n1 n2 hwhole hlen hacc hh husable
  have hvalid : AllValid s [Reg.acc, Reg.h] := allValid_pair hacc hh
  have hfirst := exec_foldh (s := firstChunk s n1) hvalid (inputUsable_firstChunk husable hlen)
  have hsecond := exec_foldh (s := secondChunk s n1 n2) (allValid_effect_foldh hvalid)
    (inputUsable_secondChunk husable hlen)
  refine ⟨_, _, _, hfirst, hsecond, exec_foldh hvalid husable, ?_, ?_, effect_err _ s⟩
  · calc (effect .foldh (secondChunk s n1 n2)).reg Reg.acc
        = hornerAcc (secondChunk s n1 n2) := reg_acc_foldh _
      _ = hornerAcc s := hornerAcc_secondChunk husable hlen hwhole
      _ = (effect .foldh s).reg Reg.acc := (reg_acc_foldh s).symm
  · exact (effect_err .foldh (secondChunk s n1 n2)).trans (effect_err .foldh (firstChunk s n1))

end Sys2Proof.Machine
end

section
/-! PROOFS. FOLDB: what it leaves in `ACC`, and, when the table holds the powers of the hash key, its
groups as Horner steps, so that it leaves the state FOLDH leaves (43_batched.md R170 to R176). -/

namespace Sys2Proof.Machine

/-! ### FOLDB completes -/

theorem validitySet_foldb_of_empty (w : Nat) {s : State} (hlen : s.len = 0#32) :
    validitySet s (.foldb w) = [] :=
  if_pos hlen

/-- The table registers FOLDB `W` checks are `T[0..W-1]` (R172). -/
theorem allValid_tableSet {w : Nat} {s : State}
    (htable : ∀ k : RegIdx, k.val < w → s.xv[k] = 0xF#4) :
    AllValid s (tableSet w) := by
  intro r hr
  obtain ⟨k, hk, rfl⟩ := List.mem_map.mp hr
  exact htable (Reg.t k) ((Nat.mod_le k 32).trans_lt (List.mem_range.mp hk))

/-- With `ACC` and `T[0..W-1]` valid, the validity set of FOLDB `W` passes whatever `LEN` is (R172). -/
theorem allValid_foldb {w : Nat} {s : State} (hvalid : AllValid s (Reg.acc :: tableSet w)) :
    AllValid s (validitySet s (.foldb w)) := by
  by_cases hlen : s.len = 0#32
  · rw [validitySet_foldb_of_empty w hlen]; exact allValid_nil s
  · rwa [show validitySet s (.foldb w) = Reg.acc :: tableSet w from if_neg hlen]

/-- FOLDB of a usable buffer with `ACC` and the table valid, an empty buffer among them (R172). -/
theorem exec_foldb {w : Nat} {s : State} (hacc : s.xv[(24 : RegIdx)] = 0xF#4)
    (htable : ∀ k : RegIdx, k.val < w → s.xv[k] = 0xF#4) (husable : InputUsable s) :
    exec (.foldb w) s = .next (writeAcc (batchedAcc w s) s) := by
  have hvalid : AllValid s (Reg.acc :: tableSet w) :=
    (allValid_cons s _ _).mpr ⟨hacc, allValid_tableSet htable⟩
  exact exec_of_input rfl rfl (allValid_foldb hvalid) husable

/-- FOLDB of an empty buffer is a no-op whatever is valid (R172). -/
theorem exec_foldb_of_empty (w : Nat) {s : State} (hlen : s.len = 0#32) :
    exec (.foldb w) s = .next s := by
  have hvalid : AllValid s (validitySet s (.foldb w)) := by
    rw [validitySet_foldb_of_empty w hlen]; exact allValid_nil s
  rw [exec_of_input rfl rfl hvalid (inputUsable_of_empty hlen), effect_foldb, writeAcc, if_pos hlen]

/-- Settles O39: an empty buffer has no checks to fail; else the checks pass and `ACC` is written. -/
theorem foldbResult : Obligations.FoldbResult := by
  refine ⟨fun w s => exec_foldb_of_empty w, fun w s _ _ hlen hacc htable husable => ?_⟩
  rw [exec_foldb hacc htable husable, writeAcc, if_neg hlen]
  rfl

/-! ### A group as Horner steps -/

section

variable {t : Nat → Block} {h : Block}

/-- Reduction is linear, so a block's product can be reduced apart from those of the newer blocks
(R127, R170). -/
theorem gfReduce_group_cons (t : Nat → Block) (b : Block) (bs : List Block) :
    gfReduce (groupHigh t (b :: bs)) (groupLow t (b :: bs)) =
      gfmul b (t bs.length) ^^^ gfReduce (groupHigh t bs) (groupLow t bs) := by
  rw [groupHigh, groupLow, gfReduce_xor, gfmul]

theorem groupFold_cons (t : Nat → Block) (s b : Block) (bs : List Block) :
    groupFold t s (b :: bs) =
      gfmul (s ^^^ b) (t bs.length) ^^^ gfReduce (groupHigh t bs) (groupLow t bs) := by
  rw [groupFold, gfReduce_group_cons]

theorem groupFold_singleton (t : Nat → Block) (s b : Block) :
    groupFold t s [b] = foldStep (t 0) s b := by
  rw [groupFold_cons, groupHigh, groupLow, gfReduce_zero_right, BitVec.xor_zero, foldStep,
    List.length_nil]

/-- Multiplying once by `h` and then by the power of the newer block is multiplying by the power of the
older one, so the oldest block of a group can be folded by a Horner step of its own (R171). -/
theorem groupFold_cons_cons {b c : Block} {bs : List Block} (s : Block)
    (hnewer : t bs.length = hashPower h bs.length)
    (holder : t (bs.length + 1) = hashPower h (bs.length + 1)) :
    groupFold t s (b :: c :: bs) = groupFold t (foldStep h s b) (c :: bs) := by
  have hpower : t (bs.length + 1) = gfmul h (t bs.length) := by
    rw [holder, hnewer, hashPower_succ, gfmul_comm]
  calc groupFold t s (b :: c :: bs)
      = gfmul (s ^^^ b) (gfmul h (t bs.length)) ^^^
          (gfmul c (t bs.length) ^^^ gfReduce (groupHigh t bs) (groupLow t bs)) := by
        rw [groupFold_cons, gfReduce_group_cons, List.length_cons, hpower]
    _ = gfmul (foldStep h s b ^^^ c) (t bs.length) ^^^
          gfReduce (groupHigh t bs) (groupLow t bs) := by
        rw [gfmul_xor_left (foldStep h s b), foldStep, gfmul_assoc, BitVec.xor_assoc]
    _ = groupFold t (foldStep h s b) (c :: bs) := (groupFold_cons t _ c bs).symm

/-- A group is as many Horner steps when the table holds the powers (R171). -/
theorem groupFold_eq_hornerFold (s : Block) {bs : List Block}
    (htable : ∀ k, k < bs.length → t k = hashPower h k) :
    groupFold t s bs = hornerFold s h bs := by
  induction bs generalizing s with
  | nil => rfl
  | cons b bs ih =>
    cases bs with
    | nil => rw [groupFold_singleton, htable 0 Nat.one_pos]; rfl
    | cons c cs =>
      have hshorter : ∀ k, k < (c :: cs).length → t k = hashPower h k :=
        fun k hk => htable k (Nat.lt_succ_of_lt hk)
      rw [groupFold_cons_cons s (hshorter _ (Nat.lt_succ_self _)) (htable _ (Nat.lt_succ_self _)),
        ih _ hshorter]
      rfl

/-- Groups of `w` blocks and a short group of at most `w` are the Horner fold of all the blocks
(R171, R172). -/
theorem foldGroups_eq_hornerFold {w : Nat} (htable : ∀ k, k < w → t k = hashPower h k) {full : Nat}
    (s : Block) {bs : List Block} (hlen : bs.length ≤ w * (full + 1)) :
    foldGroups t w full s bs = hornerFold s h bs := by
  have hgroup (s : Block) {g : List Block} (hg : g.length ≤ w) :
      groupFold t s g = hornerFold s h g :=
    groupFold_eq_hornerFold s fun k hk => htable k (hk.trans_le hg)
  induction full generalizing s bs with
  | zero => exact hgroup s (by omega)
  | succ full ih =>
    have hrest : (bs.drop w).length ≤ w * (full + 1) := by
      rw [List.length_drop, Nat.sub_le_iff_le_add]; exact hlen
    calc foldGroups t w (full + 1) s bs
        = hornerFold (groupFold t s (bs.take w)) h (bs.drop w) := ih _ hrest
      _ = hornerFold (hornerFold s h (bs.take w)) h (bs.drop w) := by
        rw [hgroup s (List.length_take_le w bs)]
      _ = hornerFold s h bs := by rw [← hornerFold_append, List.take_append_drop]

end

/-- Settles O40: the Horner steps are taken off a group from its oldest block on. -/
theorem groupFoldIsHornerSteps : Obligations.GroupFoldIsHornerSteps := fun _ s _ _ htable =>
  groupFold_eq_hornerFold s htable

/-! ### FOLDB and FOLDH -/

section

variable {w : Nat} {s : State} (hw : 1 ≤ w) (htable : TableHolds s (s.reg Reg.h) w)
include hw htable

/-- The groups of FOLDB fold the full blocks of the buffer as Horner steps do (R172, R176). -/
theorem groupsAcc_eq_hornerFold : groupsAcc w s = hornerFold (s.reg Reg.acc) (s.reg Reg.h)
    (s.mem.fullBlocks s.src.toNat (s.len.toNat / 16)) := by
  refine foldGroups_eq_hornerFold htable _ ?_
  rw [← Nat.div_div_eq_div_mul, Memory.fullBlocks, List.length_map, List.length_range]
  exact (Nat.lt_mul_div_succ _ hw).le

/-- FOLDB and FOLDH compute one accumulator: the tail too is folded with `T[0] = H` (R172, R176). -/
theorem batchedAcc_eq_hornerAcc : batchedAcc w s = hornerAcc s := by
  have hfirst : s.table 0 = s.reg Reg.h := htable 0 hw
  rw [hornerAcc, Memory.bufferBlocks, hornerFold_append, batchedAcc,
    groupsAcc_eq_hornerFold hw htable, hfirst]
  by_cases htail : s.len.toNat % 16 = 0
  · simp only [if_pos htail]; rfl
  · simp only [if_neg htail]; rfl

end

/-- Settles O41: both commands complete and write the same accumulator. -/
theorem batchedFoldEqualsHornerFold : Obligations.BatchedFoldEqualsHornerFold := by
  intro w s hw _ hacc hh hvalid husable htable
  rw [exec_foldb hacc hvalid husable, exec_foldh (allValid_pair hacc hh) husable, effect_foldh,
    batchedAcc_eq_hornerAcc hw htable]

end Sys2Proof.Machine
end

section
/-! PROOFS. The parts of an AES round, byte by byte: SubBytes, ShiftRows, MixColumns, and the rounds they
make (44_aes_round.md R191 to R195). -/

namespace Sys2Proof.Machine

/-! ### SubBytes and ShiftRows -/

theorem byteOf_subBytes (s : Block) {k : Nat} (hk : k < 16) :
    byteOf (subBytes s) k = sbox (byteOf s k) :=
  byteOf_blockOfBytes _ k hk

theorem byteOf_shiftRows (s : Block) {k : Nat} (hk : k < 16) :
    byteOf (shiftRows s) k = byteOf s (shiftRowsSource k) :=
  byteOf_blockOfBytes _ k hk

theorem shiftRowsSource_lt (k : Nat) : shiftRowsSource k < 16 := by
  unfold shiftRowsSource; omega

theorem shiftRowsSource_row_column {r c : Nat} (hr : r < 4) :
    shiftRowsSource (r + 4 * c) = r + 4 * ((c + r) % 4) := by
  have hrow : (r + 4 * c) % 4 = r := by omega
  have hcolumn : (r + 4 * c) / 4 = c := by omega
  rw [shiftRowsSource, hrow, hcolumn]

/-- Settles O44: a destination byte is read from its source, whose row and column are computed. -/
theorem shiftRowsRotatesRows : Obligations.ShiftRowsRotatesRows := by
  intro s r c hr hc
  rw [byteOf_shiftRows s (by omega), shiftRowsSource_row_column hr]

/-- One substitutes bytes where they stand, the other moves them unchanged (R194). -/
theorem shiftRows_subBytes (s : Block) : shiftRows (subBytes s) = subBytes (shiftRows s) := by
  refine block_ext fun k hk => ?_
  calc byteOf (shiftRows (subBytes s)) k
      = byteOf (subBytes s) (shiftRowsSource k) := byteOf_shiftRows _ hk
    _ = sbox (byteOf s (shiftRowsSource k)) := byteOf_subBytes s (shiftRowsSource_lt k)
    _ = sbox (byteOf (shiftRows s) k) := by rw [byteOf_shiftRows s hk]
    _ = byteOf (subBytes (shiftRows s)) k := (byteOf_subBytes _ hk).symm

/-- Settles O46: the rounds are their compositions, and SubBytes and ShiftRows commute. -/
theorem roundsComposeTheirParts : Obligations.RoundsComposeTheirParts := by
  refine ⟨fun s k => ⟨rfl, ?_⟩, fun s k => rfl, fun s k => byteOf_subBytes s⟩
  rw [← shiftRows_subBytes, encRound]

end Sys2Proof.Machine
end

section
/-! PROOFS. The bytes in GF(2)[Y] / (Y^8 + Y^4 + Y^3 + Y + 1): under this injective reading xor is addition
and `gf256Mul` is multiplication, so an inverse is unique; with it the S-box and MixColumns
(44_aes_round.md R191, R193). -/

namespace Sys2Proof.Machine

open Polynomial

/-- The polynomial of the AES byte field, `0x1b` standing for its terms below the eighth (R191). -/
noncomputable def bytePoly : (ZMod 2)[X] := X ^ 8 + polyOf 0x1b#8

/-- The residue a byte stands for (R191). -/
noncomputable def byteElem (a : Byte) : AdjoinRoot bytePoly := AdjoinRoot.mk bytePoly (polyOf a)

theorem degree_bytePoly : bytePoly.degree = (8 : ℕ) := by
  have hlow : (polyOf 0x1b#8).degree < (X ^ 8 : (ZMod 2)[X]).degree := by
    rw [degree_X_pow]; exact degree_polyOf_lt _
  rw [bytePoly, degree_add_eq_left_of_degree_lt hlow, degree_X_pow]

theorem byteElem_injective : Function.Injective byteElem := fun _ _ h =>
  eq_of_mk_polyOf_eq degree_bytePoly.ge h

@[simp] theorem byteElem_zero : byteElem 0#8 = 0 := by simp [byteElem]

@[simp] theorem byteElem_one : byteElem 1#8 = 1 := by simp [byteElem, polyOf_one]

@[simp] theorem byteElem_xor (a b : Byte) : byteElem (a ^^^ b) = byteElem a + byteElem b := by
  simp [byteElem]

/-- `Y^8` and `0x1b` are the same residue (R191). -/
theorem mk_X_pow_eight : AdjoinRoot.mk bytePoly (X ^ 8) = byteElem 0x1b#8 := by
  rw [byteElem, AdjoinRoot.mk_eq_mk, CharTwo.sub_eq_add, ← bytePoly]

theorem ushiftRight_seven (a : Byte) : a >>> 7 = if a.getLsbD 7 then 1#8 else 0#8 := by
  revert a; decide

/-- `gfDouble` multiplies by `Y`: the bit it shifts out is replaced by its residue (R193). -/
@[simp] theorem byteElem_gfDouble (a : Byte) :
    byteElem (gfDouble a) = AdjoinRoot.mk bytePoly X * byteElem a := by
  have hshift : polyOf a * X = polyOf (a >>> 7) * X ^ 8 + polyOf (a <<< 1) := by
    rw [← polyOf_mul_X_pow (m := 7) (k := 1) a rfl, pow_one]
  have hout : byteElem (a >>> 7) * byteElem 0x1b#8 =
      byteElem (if a.getLsbD 7 then 0x1b#8 else 0#8) := by
    rw [ushiftRight_seven]; cases a.getLsbD 7 <;> simp
  calc byteElem (gfDouble a)
      = byteElem (a >>> 7) * AdjoinRoot.mk bytePoly (X ^ 8) + byteElem (a <<< 1) := by
        rw [gfDouble, byteElem_xor, mk_X_pow_eight, hout, add_comm]
    _ = AdjoinRoot.mk bytePoly (polyOf a * X) := by
        rw [hshift, map_add, map_mul]; rfl
    _ = AdjoinRoot.mk bytePoly X * byteElem a := by rw [map_mul, mul_comm, byteElem]

/-- A byte is its upper seven bits times `Y`, and its lowest bit (R191). -/
theorem byteElem_eq_ushiftRight_add (b : Byte) : byteElem b =
    AdjoinRoot.mk bytePoly X * byteElem (b >>> 1) + byteElem (if b.getLsbD 0 then 1#8 else 0#8) := by
  have hpoly : polyOf b = X * polyOf (b >>> 1) + polyOf (if b.getLsbD 0 then 1#8 else 0#8) := by
    ext k
    rw [coeff_add]
    cases k with
    | zero => rw [coeff_X_mul_zero, coeff_polyOf, coeff_polyOf]; cases b.getLsbD 0 <;> simp
    | succ k => rw [coeff_X_mul]; cases b.getLsbD 0 <;> simp [coeff_polyOf, add_comm]
  rw [byteElem, hpoly, map_add, map_mul]; rfl

theorem byteElem_gf256MulBits (a : Byte) {b : Byte} {n : Nat} (hb : b.toNat < 2 ^ n) :
    byteElem (gf256MulBits a b n) = byteElem a * byteElem b := by
  induction n generalizing b with
  | zero =>
    have hzero : b = 0#8 := BitVec.eq_of_toNat_eq (Nat.lt_one_iff.mp hb)
    simp [gf256MulBits, hzero]
  | succ n ih =>
    have hshift : (b >>> 1).toNat < 2 ^ n := by
      rw [BitVec.toNat_ushiftRight, Nat.shiftRight_eq_div_pow]; omega
    have hbit : byteElem (if b.getLsbD 0 then a else 0#8) =
        byteElem a * byteElem (if b.getLsbD 0 then 1#8 else 0#8) := by
      cases b.getLsbD 0 <;> simp
    rw [gf256MulBits, byteElem_xor, byteElem_gfDouble, ih hshift, hbit,
      byteElem_eq_ushiftRight_add b]
    ring

@[simp] theorem byteElem_gf256Mul (a b : Byte) :
    byteElem (gf256Mul a b) = byteElem a * byteElem b :=
  byteElem_gf256MulBits a b.isLt

/-! ### The S-box -/

/-- An inverse is unique (R191). -/
theorem eq_of_gf256Mul_eq_one {a b c : Byte} (hb : gf256Mul a b = 1#8) (hc : gf256Mul a c = 1#8) :
    b = c := by
  have hleft : byteElem b * byteElem a = 1 := by
    rw [mul_comm, ← byteElem_gf256Mul, hb, byteElem_one]
  have hright : byteElem a * byteElem c = 1 := by rw [← byteElem_gf256Mul, hc, byteElem_one]
  exact byteElem_injective (left_inv_eq_right_inv hleft hright)

theorem ne_zero_of_gf256Mul_eq_one {a b : Byte} (h : gf256Mul a b = 1#8) : a ≠ 0#8 := by
  rintro rfl
  have hone : byteElem 1#8 = byteElem 0#8 := by rw [← h, byteElem_gf256Mul, byteElem_zero, zero_mul]
  exact absurd (byteElem_injective hone) (by decide)

/-- The inverse of the affine part of the S-box (R191). -/
def sboxAffineInv (y : Byte) : Byte :=
  y.rotateLeft 1 ^^^ y.rotateLeft 3 ^^^ y.rotateLeft 6 ^^^ 0x05#8

theorem sboxAffine_sboxAffineInv : ∀ y, sboxAffine (sboxAffineInv y) = y := by decide +kernel

/-- What the table holds at `a` is, under the affine map, the inverse of `a`: the 255 entries. -/
theorem gf256Mul_sboxAffineInv_sbox :
    ∀ a, a ≠ 0#8 → gf256Mul a (sboxAffineInv (sbox a)) = 1#8 := by decide +kernel

/-- Settles O43: each entry is the affine map of an inverse, and there is no other inverse. -/
theorem sboxIsAffineOfInverse : Obligations.SboxIsAffineOfInverse := by
  refine ⟨by decide, fun a b h => ?_⟩
  have hinverse : sboxAffineInv (sbox a) = b :=
    eq_of_gf256Mul_eq_one (gf256Mul_sboxAffineInv_sbox a (ne_zero_of_gf256Mul_eq_one h)) h
  rw [← hinverse, sboxAffine_sboxAffineInv]

/-! ### MixColumns -/

theorem byteElem_two : byteElem 2 = AdjoinRoot.mk bytePoly X := by
  have hdouble : gfDouble 1#8 = 2 := by decide
  rw [← hdouble, byteElem_gfDouble, byteElem_one, mul_one]

theorem gf256Mul_two (a : Byte) : gf256Mul a 2 = gfDouble a :=
  byteElem_injective (by
    rw [byteElem_gf256Mul, byteElem_two, mul_comm, byteElem_gfDouble])

theorem gf256Mul_three (a : Byte) : gf256Mul a 3 = gfTriple a := by
  have hsum : (3 : Byte) = 2 ^^^ 1#8 := by decide
  apply byteElem_injective
  rw [byteElem_gf256Mul, hsum, byteElem_xor, byteElem_two, byteElem_one, gfTriple, byteElem_xor,
    byteElem_gfDouble]
  ring

/-- Row `r` of column `c` (R193). -/
theorem byteOf_mixColumns (s : Block) {c r : Nat} (hc : c < 4) (hr : r < 4) :
    byteOf (mixColumns s) (4 * c + r) = mixByte r (byteOf s (4 * c)) (byteOf s (4 * c + 1))
      (byteOf s (4 * c + 2)) (byteOf s (4 * c + 3)) := by
  have hrow : (4 * c + r) % 4 = r := by omega
  have hcolumn : (4 * c + r) / 4 = c := by omega
  rw [mixColumns, byteOf_blockOfBytes _ _ (by omega), hrow, hcolumn]

/-- Settles O45: each row of a column is `mixByte`, whose double and triple are the field products. -/
theorem mixColumnsMixesColumns : Obligations.MixColumnsMixesColumns := by
  refine ⟨fun s c hc => ?_, fun a => ?_, by decide +kernel⟩
  · simp only [gf256Mul_two, gf256Mul_three]
    exact ⟨byteOf_mixColumns s (r := 0) hc (by decide), byteOf_mixColumns s (r := 1) hc (by decide),
      byteOf_mixColumns s (r := 2) hc (by decide), byteOf_mixColumns s (r := 3) hc (by decide)⟩
  · rw [gf256Mul_three, gf256Mul_two]
    exact ⟨rfl, rfl⟩

end Sys2Proof.Machine
end

section
/-! PROOFS. Whole-block encryption as a recurrence over the rounds, and the AES commands: with their
registers valid they complete, and nothing but `rd` changes (44_aes_round.md R196 to R200). -/

namespace Sys2Proof.Machine

section

variable {rk t : Nat → Block} {nr : Nat}
  (hround : ∀ i, 1 ≤ i → i < nr → t i = encRound (t (i - 1)) (rk i))
include hround

/-- Intermediate states that follow the rounds are the states of the model (R197). -/
theorem encRounds_eq_of_recurrence {i : Nat} (hi : i < nr) : encRounds rk (t 0) i = t i := by
  induction i with
  | zero => rfl
  | succ i ih => rw [encRounds, ih (Nat.lt_of_succ_lt hi), hround (i + 1) (Nat.le_add_left 1 i) hi,
      Nat.add_sub_cancel]

theorem encBlock_eq_of_recurrence {s : Block} (hnr : 1 ≤ nr) (hstart : t 0 = s ^^^ rk 0) :
    encBlock rk nr s = encLast (t (nr - 1)) (rk nr) := by
  rw [encBlock, ← hstart, encRounds_eq_of_recurrence hround (Nat.sub_lt hnr Nat.one_pos)]

end

theorem one_le_rounds (m : State) : 1 ≤ m.rounds := by
  unfold State.rounds; split <;> decide

/-- Settles O47: the model's rounds follow the recurrence, with the machine's keys and round count. -/
theorem encBlockRunsTheRounds : Obligations.EncBlockRunsTheRounds :=
  fun m _ _ hstart hround => encBlock_eq_of_recurrence hround (one_le_rounds m) hstart

/-- Settles O48: the sources are all that is checked. -/
theorem aesRoundResults : Obligations.AesRoundResults := fun _ _ _ _ h1 h2 =>
  ⟨exec_of_regs rfl rfl (allValid_pair h1 h2), exec_of_regs rfl rfl (allValid_pair h1 h2)⟩

/-- Settles O49: the source and the round keys are all that is checked. -/
theorem aesblkResult : Obligations.AesblkResult := by
  intro rd rs1 s hsource hkeys
  have hvalid : AllValid s (rs1 :: roundKeySet s) := by
    rw [roundKeySet_eq]; exact (allValid_cons s rs1 _).mpr ⟨hsource, hkeys⟩
  exact exec_of_regs rfl rfl hvalid

end Sys2Proof.Machine
end

section
/-! PROOFS. The counter: lane 0 advances and the other lanes stay, as `ctrAdd` and as the command CTRINC
(45_ctr_codec.md R210, R211). -/

namespace Sys2Proof.Machine

theorem laneOf_zero_ctrAdd (c : Block) (k : Nat) :
    laneOf (ctrAdd c k) 0 = laneOf c 0 + BitVec.ofNat 32 k := by
  rw [laneOf, ctrAdd, BitVec.extractLsb'_append_eq_of_add_le (by decide), Nat.mul_zero,
    BitVec.extractLsb'_eq_self]

/-- No carry leaves lane 0 (R210). -/
theorem laneOf_ctrAdd_of_pos (c : Block) (k : Nat) {j : Nat} (hpos : 1 ≤ j) (hj : j < 4) :
    laneOf (ctrAdd c k) j = laneOf c j := by
  rw [laneOf, ctrAdd, BitVec.extractLsb'_append_eq_of_le (by omega)]
  ext i hi
  have hlt : 32 * j - 32 + i < 96 := by omega
  have hbit : 32 + (32 * j - 32 + i) = 32 * j + i := by omega
  rw [laneOf, BitVec.getElem_extractLsb', BitVec.getElem_extractLsb', BitVec.getLsbD_extractLsb',
    hbit, decide_eq_true hlt, Bool.true_and]

/-- Settles O50: lane by lane; that advances add up is a law of the model. -/
theorem counterAddsInLaneZero : Obligations.CounterAddsInLaneZero := fun c a b =>
  ⟨laneOf_zero_ctrAdd c a, fun _ hpos hj => laneOf_ctrAdd_of_pos c a hpos hj, ctrAdd_ctrAdd c a b⟩

/-- Writing a valid register with what it holds changes nothing. -/
theorem setReg_reg_self {s : State} {r : RegIdx} (hvalid : s.xv[r] = 0xF#4) :
    s.setReg r (s.reg r) = s := by
  have hx : s.x.set r (s.reg r) = s.x := Vector.set_getElem_self r.isLt
  have hxv : s.xv.set r 0xF#4 = s.xv := by rw [← hvalid]; exact Vector.set_getElem_self r.isLt
  rw [State.setReg, hx, hxv]

/-- CTRINC completes when `CTR` is valid (R211). -/
theorem exec_ctrinc {s : State} (k : Nat) (hctr : s.xv[(25 : RegIdx)] = 0xF#4) :
    exec (.ctrinc k) s = .next (s.setReg Reg.ctr (ctrAdd (s.reg Reg.ctr) k)) :=
  exec_of_regs rfl rfl ((allValid_cons s Reg.ctr []).mpr ⟨hctr, allValid_nil s⟩)

/-- Settles O51: `CTR` is all that is checked; an advance by 0 writes back what `CTR` holds. -/
theorem ctrincResult : Obligations.CtrincResult := by
  intro k s _ hctr
  refine ⟨exec_ctrinc k hctr, ?_⟩
  rintro rfl
  rw [exec_ctrinc 0 hctr, ctrAdd_zero, setReg_reg_self (r := Reg.ctr) hctr]

end Sys2Proof.Machine
end
section
/-! PROOFS. CTRENC and CTRDEC: they complete when ready, and what they leave in memory and in the
registers, for an empty buffer too (45_ctr_codec.md R212 to R222). -/

namespace Sys2Proof.Machine

/-! ### The codec commands complete -/

theorem exec_ctrenc {s : State} (hready : CodecReady s) : exec .ctrenc s = .next (codec false s) :=
  exec_of_noFault ((firstFailure_codec_iff (.inl rfl)).mpr hready)

theorem exec_ctrdec {s : State} (hready : CodecReady s) : exec .ctrdec s = .next (codec true s) :=
  exec_of_noFault ((firstFailure_codec_iff (.inr rfl)).mpr hready)

/-- With `LEN = 0` the codec needs `TAG` and nothing else (R222). -/
theorem codecReady_of_empty {s : State} (hlen : s.len = 0#32) (htag : s.xv[(26 : RegIdx)] = 0xF#4) :
    CodecReady s := by
  have hzero : s.len.toNat = 0 := by rw [hlen]; rfl
  have hregs : CodecRegistersValid s :=
    ⟨(allValid_cons s _ _).mpr ⟨htag, allValid_nil s⟩, by omega, by omega, by omega⟩
  have hout : OutputUsable s := ⟨by omega, by omega⟩
  have hmeet : ¬ BuffersMeet s := by rw [buffersMeet_iff]; omega
  exact ⟨hregs, inputUsable_of_empty hlen, hout, hmeet⟩

/-- With `LEN = 0` no phase runs, and the counter alone is written (R222). -/
theorem codec_of_empty (dec : Bool) {s : State} (hlen : s.len = 0#32) :
    codec dec s = s.setReg Reg.ctr (initialCounter (s.reg Reg.tag)) := by
  have hstart : codecPhases dec s = codecStart s := by rw [codecPhases, hlen]; rfl
  rw [codec_eq_writeAcc, writeAcc, setReg_len, if_pos hlen, hstart]
  rfl

/-- Settles O52: ready because empty, and the effect is the initial counter, in either direction. -/
theorem codecOfNothing : Obligations.CodecOfNothing := by
  intro i s hcodec hlen htag
  have hready := codecReady_of_empty hlen htag
  obtain rfl | rfl := hcodec
  · rw [exec_ctrenc hready, codec_of_empty false hlen]; rfl
  · rw [exec_ctrdec hready, codec_of_empty true hlen]; rfl

/-! ### What they leave -/

/-- Neither the counter nor the accumulator: as it was (R215). -/
theorem reg_codec_of_ne (dec : Bool) (s : State) {r : RegIdx} (hacc : r ≠ Reg.acc)
    (hctr : r ≠ Reg.ctr) : (codec dec s).reg r = s.reg r := by
  simp [reg_codec, hacc, hctr]

theorem xv_codec_of_ne (dec : Bool) (s : State) {r : RegIdx} (hacc : r ≠ Reg.acc)
    (hctr : r ≠ Reg.ctr) : (codec dec s).xv[r] = s.xv[r] := by
  rw [xv_codec, if_neg (by simp [hacc, hctr])]

/-- What CTRENC and CTRDEC have in common, `cts` being the blocks that are folded: from `s` they leave
`t` (R215, R220, R221). -/
def CodecOutcome (s t : State) (cts : List Block) : Prop :=
  t = { s with x := t.x, xv := t.xv, mem := t.mem } ∧
  (∀ k, k < s.len.toNat →
    t.mem.read (s.dst.toNat + k) = s.mem.read (s.src.toNat + k) ^^^ keystreamByte s k) ∧
  (∀ a, ¬ (s.dst.toNat ≤ a ∧ a < s.dst.toNat + s.len.toNat) → t.mem.read a = s.mem.read a) ∧
  t.reg Reg.ctr = ctrAdd (initialCounter (s.reg Reg.tag)) (s.len.toNat / 16) ∧
  t.reg Reg.acc = codecFold s (s.len.toNat / 96) cts ∧
  t.xv[Reg.ctr] = 0xF#4 ∧ t.xv[Reg.acc] = 0xF#4 ∧
  (∀ r : RegIdx, r ≠ Reg.acc → r ≠ Reg.ctr → t.reg r = s.reg r ∧ t.xv[r] = s.xv[r])

section

variable (dec : Bool) {s : State} (hm : s.mem.wf) (hap : Apart s)
include hm hap

theorem read_codec_output {k : Nat} (hk : k < s.len.toNat) :
    (codec dec s).mem.read (s.dst.toNat + k) =
      s.mem.read (s.src.toNat + k) ^^^ keystreamByte s k := by
  rw [read_codec_mem dec hm hap, if_pos (by omega), Nat.add_sub_cancel_left]
  rfl

theorem reg_ctr_codec : (codec dec s).reg Reg.ctr =
    ctrAdd (initialCounter (s.reg Reg.tag)) (s.len.toNat / 16) := by
  rw [reg_codec, if_pos rfl, codecPhases_ctr dec hm hap]

/-- `ACC` after a codec command is the fold of its ciphertext blocks; with `LEN = 0` there are none, and
`ACC` is as it was (R215, R222). -/
theorem reg_acc_codec : (codec dec s).reg Reg.acc =
    codecFold s (s.len.toNat / 96) (ctBlocks dec s) := by
  have hne : Reg.acc ≠ Reg.ctr := by decide
  rw [reg_codec, if_neg hne]
  by_cases hlen : s.len = 0#32
  · rw [if_neg (by simp [hlen]), ctBlocks, hlen]; rfl
  · rw [if_pos ⟨rfl, hlen⟩, codecPhases_acc hm.1 hap]; rfl

theorem codec_outcome (hlen : s.len ≠ 0#32) : CodecOutcome s (codec dec s) (ctBlocks dec s) := by
  refine ⟨codec_frame dec s, fun k hk => read_codec_output dec hm hap hk, fun a ha => ?_,
    reg_ctr_codec dec hm hap, reg_acc_codec dec hm hap, ?_, ?_, fun r hacc hctr =>
      ⟨reg_codec_of_ne dec s hacc hctr, xv_codec_of_ne dec s hacc hctr⟩⟩
  · rw [read_codec_mem dec hm hap, if_neg ha]
  · rw [xv_codec, if_pos (.inl rfl)]
  · rw [xv_codec, if_pos (.inr ⟨rfl, hlen⟩)]

/-- The ciphertext blocks of CTRENC are those of the output buffer it leaves (R214). -/
theorem ctBlocks_enc_codec :
    ctBlocks false s = (codec false s).mem.bufferBlocks s.dst.toNat s.len.toNat := by
  rw [codec_mem, ctBlocks_enc hm.1 hap]

end

theorem CodecReady.apart {s : State} (hready : CodecReady s) : Apart s := by
  obtain ⟨-, -, -, hmeet⟩ := hready
  exact apart_of_not_meet hmeet

/-- Settles O53: the outcome of the codec, with the output's blocks for the ciphertext. -/
theorem ctrencResult : Obligations.CtrencResult := by
  intro s hm hready hlen
  refine ⟨codec false s, exec_ctrenc hready, ?_⟩
  have houtcome := codec_outcome false hm hready.apart hlen
  rw [ctBlocks_enc_codec hm hready.apart] at houtcome
  exact houtcome

/-- Settles O54: the outcome of the codec, with the input's blocks for the ciphertext. -/
theorem ctrdecResult : Obligations.CtrdecResult := fun _ hm hready hlen =>
  ⟨_, exec_ctrdec hready, codec_outcome true hm hready.apart hlen⟩

end Sys2Proof.Machine
end

section
/-! PROOFS. The critical cross-check: with powers of `h` in the table the codec's fold is the Horner fold
of the ciphertext with `h` (45_ctr_codec.md R217). -/

namespace Sys2Proof.Machine

/-- Groups of six from the front and Horner steps for the rest are Horner steps all along. -/
theorem codecFold_eq_hornerFold {s : State} {h : Block} {q : Nat} (hfirst : TableHolds s h 1)
    (hgroups : q ≠ 0 → TableHolds s h 6) (bs : List Block) :
    codecFold s q bs = hornerFold (s.reg Reg.acc) h bs := by
  have hstep : s.table 0 = h := hfirst 0 Nat.one_pos
  have hfront : foldGroups s.table 6 q (s.reg Reg.acc) (bs.take (6 * q)) =
      hornerFold (s.reg Reg.acc) h (bs.take (6 * q)) := by
    by_cases hq : q = 0
    · subst hq; rfl
    · exact foldGroups_eq_hornerFold (hgroups hq) _ ((List.length_take_le _ bs).trans (by omega))
  calc codecFold s q bs
      = hornerFold (foldGroups s.table 6 q (s.reg Reg.acc) (bs.take (6 * q))) (s.table 0)
          (bs.drop (6 * q)) := rfl
    _ = hornerFold (hornerFold (s.reg Reg.acc) h (bs.take (6 * q))) h (bs.drop (6 * q)) := by
      rw [hfront, hstep]
    _ = hornerFold (s.reg Reg.acc) h bs := by rw [← hornerFold_append, List.take_append_drop]

/-- The table entries R217 asks for are those the fold uses: all six only if there is a group. -/
theorem reg_acc_codec_of_powers (dec : Bool) {s : State} {h : Block} (hm : s.mem.wf)
    (hap : Apart s) (htable : TableHolds s h (if 96 ≤ s.len.toNat then 6 else 1)) :
    (codec dec s).reg Reg.acc = hornerFold (s.reg Reg.acc) h (ctBlocks dec s) := by
  rw [reg_acc_codec dec hm hap]
  refine codecFold_eq_hornerFold (fun k hk => htable k ?_) (fun hq k hk => htable k ?_) _
  · split <;> omega
  · rwa [if_pos (by omega)]

/-- Settles O55: in either direction the fold of the ciphertext blocks. -/
theorem codecAccumulatesTheCiphertext : Obligations.CodecAccumulatesTheCiphertext := by
  intro s h hm hready _ htable
  have hap := hready.apart
  refine ⟨⟨_, exec_ctrenc hready, ?_⟩, ⟨_, exec_ctrdec hready, ?_⟩⟩
  · rw [← ctBlocks_enc_codec hm hap]
    exact reg_acc_codec_of_powers false hm hap htable
  · exact reg_acc_codec_of_powers true hm hap htable

end Sys2Proof.Machine
end

section
/-! PROOFS. The round trip: CTRDEC of what CTRENC wrote gives the plaintext, the same `ACC` and the same
`CTR` (45_ctr_codec.md R223). Between the two `CTR` has changed, and no codec command reads it. -/

namespace Sys2Proof.Machine

/-! ### Of the key schedule and the table only the entries in use matter -/

theorem encRounds_congr {rk rk' : Nat → Block} {n : Nat} (h : ∀ k, k ≤ n → rk k = rk' k)
    (t : Block) : encRounds rk t n = encRounds rk' t n := by
  induction n with
  | zero => rfl
  | succ n ih => rw [encRounds, encRounds, ih fun k hk => h k (by omega), h (n + 1) (Nat.le_refl _)]

theorem encBlock_congr {rk rk' : Nat → Block} {nr : Nat} (h : ∀ k, k ≤ nr → rk k = rk' k)
    (b : Block) : encBlock rk nr b = encBlock rk' nr b := by
  rw [encBlock, encBlock, h 0 (Nat.zero_le _), h nr (Nat.le_refl _),
    encRounds_congr fun k hk => h k (by omega)]

section

variable {t t' : Nat → Block}

theorem gfReduce_group_congr {bs : List Block} (h : ∀ k, k < bs.length → t k = t' k) :
    gfReduce (groupHigh t bs) (groupLow t bs) = gfReduce (groupHigh t' bs) (groupLow t' bs) := by
  induction bs with
  | nil => rfl
  | cons b bs ih =>
    rw [gfReduce_group_cons, gfReduce_group_cons, h _ (Nat.lt_succ_self _),
      ih fun k hk => h k (Nat.lt_succ_of_lt hk)]

theorem groupFold_congr (s : Block) {bs : List Block} (h : ∀ k, k < bs.length → t k = t' k) :
    groupFold t s bs = groupFold t' s bs := by
  cases bs with
  | nil => rfl
  | cons b bs => exact gfReduce_group_congr (bs := (s ^^^ b) :: bs) h

theorem foldGroups_congr {w : Nat} (h : ∀ k, k < w → t k = t' k) {full : Nat} (s : Block)
    {bs : List Block} (hlen : bs.length ≤ w * (full + 1)) :
    foldGroups t w full s bs = foldGroups t' w full s bs := by
  have hgroup (s : Block) {g : List Block} (hg : g.length ≤ w) : groupFold t s g = groupFold t' s g :=
    groupFold_congr s fun k hk => h k (hk.trans_le hg)
  induction full generalizing s bs with
  | zero => exact hgroup s (by omega)
  | succ full ih =>
    have hrest : (bs.drop w).length ≤ w * (full + 1) := by
      rw [List.length_drop, Nat.sub_le_iff_le_add]; exact hlen
    rw [foldGroups, foldGroups, hgroup s (List.length_take_le w bs), ih _ hrest]

end

/-! ### States alike in all a codec command reads of the registers -/

/-- `u` has the registers of `s` but for `CTR`, its `CFG` and its `LEN`. -/
structure AlikeButCtr (s u : State) : Prop where
  reg : ∀ r, r ≠ Reg.ctr → u.reg r = s.reg r
  xv : ∀ r : RegIdx, r ≠ Reg.ctr → u.xv[r] = s.xv[r]
  ks : u.ks = s.ks
  len : u.len = s.len

theorem t_ne_ctr {k : Nat} (hk : k < 8) : Reg.t k ≠ Reg.ctr := by
  intro h
  have hval : k % 32 = 25 := congrArg Fin.val h
  omega

theorem rk_ne_ctr {k : Nat} (hk : k ≤ 14) : Reg.rk k ≠ Reg.ctr := by
  intro h
  have hval : (8 + k) % 32 = 25 := congrArg Fin.val h
  omega

theorem rounds_le (s : State) : s.rounds ≤ 14 := by
  unfold State.rounds; split <;> decide

theorem ctr_not_mem_scheduleRegs (s : State) : Reg.ctr ∉ scheduleRegs s := by
  unfold scheduleRegs; split <;> decide

section

variable {s u : State} (h : AlikeButCtr s u)
include h

/-- The keystream is made of `TAG`, the round keys and `CFG` (R213, R215). -/
theorem AlikeButCtr.ksBlock_eq (k : Nat) : ksBlock u k = ksBlock s k := by
  have hrounds : u.rounds = s.rounds := by rw [State.rounds, State.rounds, h.ks]
  have hkeys : ∀ i, i ≤ s.rounds → u.roundKey i = s.roundKey i :=
    fun i hi => h.reg _ (rk_ne_ctr (hi.trans (rounds_le s)))
  rw [ksBlock, ksBlock, h.reg Reg.tag (by decide), State.encrypt, State.encrypt,
    hrounds, encBlock_congr hkeys]

/-- The fold is made of `ACC` and the table (R215, R216). -/
theorem AlikeButCtr.codecFold_eq (q : Nat) (bs : List Block) :
    codecFold u q bs = codecFold s q bs := by
  have htable : ∀ k, k < 6 → u.table k = s.table k := fun k hk => h.reg _ (t_ne_ctr (by omega))
  have hgroups : foldGroups u.table 6 q (u.reg Reg.acc) (bs.take (6 * q)) =
      foldGroups s.table 6 q (s.reg Reg.acc) (bs.take (6 * q)) := by
    rw [h.reg Reg.acc (by decide)]
    exact foldGroups_congr htable _ ((List.length_take_le _ bs).trans (by omega))
  calc codecFold u q bs
      = hornerFold (foldGroups u.table 6 q (u.reg Reg.acc) (bs.take (6 * q))) (u.table 0)
          (bs.drop (6 * q)) := rfl
    _ = hornerFold (foldGroups s.table 6 q (s.reg Reg.acc) (bs.take (6 * q))) (s.table 0)
          (bs.drop (6 * q)) := by rw [hgroups, htable 0 (by omega)]

theorem AlikeButCtr.allValid {rs : List RegIdx} (hvalid : AllValid s rs) (hrs : Reg.ctr ∉ rs) :
    AllValid u rs := fun r hr => by
  have hne : r ≠ Reg.ctr := fun e => hrs (e ▸ hr)
  rw [h.xv r hne, hvalid r hr]

/-- `CTR` is in no validity set of R212. -/
theorem AlikeButCtr.codecRegistersValid (hvalid : CodecRegistersValid s) : CodecRegistersValid u := by
  obtain ⟨htag, hfold, hgroups, hsingle⟩ := hvalid
  have hschedule : scheduleRegs u = scheduleRegs s := by rw [scheduleRegs, scheduleRegs, h.ks]
  rw [CodecRegistersValid, h.len, hschedule]
  refine ⟨h.allValid htag (by decide), fun hlen => ?_, fun hlen => h.allValid (hgroups hlen) (by decide),
    fun hlen => h.allValid (hsingle hlen) (by decide)⟩
  obtain ⟨hacc, hkeys⟩ := hfold hlen
  exact ⟨h.allValid hacc (by decide), h.allValid hkeys (ctr_not_mem_scheduleRegs s)⟩

end

/-! ### Encryption, then decryption -/

/-- Where decryption starts: what CTRENC left, the host having pointed the buffers from the ciphertext
to `p'` and restored `ACC` (R223). -/
def decryptionStart (s : State) (p' : Word) : State :=
  { codec false s with
    src := s.dst, dst := p'
    x := (codec false s).x.set 24 s.x[(24 : RegIdx)]
    xv := (codec false s).xv.set 24 s.xv[(24 : RegIdx)] }

section

variable (s : State) (p' : Word)

theorem decryptionStart_len : (decryptionStart s p').len = s.len := by
  rw [decryptionStart, codec_frame]

theorem decryptionStart_readable : (decryptionStart s p').readable = s.readable := by
  rw [decryptionStart, codec_frame]

theorem decryptionStart_writable : (decryptionStart s p').writable = s.writable := by
  rw [decryptionStart, codec_frame]

theorem reg_decryptionStart (r : RegIdx) : (decryptionStart s p').reg r =
    if Reg.acc = r then s.reg Reg.acc else (codec false s).reg r := by
  simp [decryptionStart, State.reg, Reg.acc, Vector.getElem_set, Fin.ext_iff]

theorem xv_decryptionStart (r : RegIdx) : (decryptionStart s p').xv[r] =
    if Reg.acc = r then s.xv[Reg.acc] else (codec false s).xv[r] := by
  simp [decryptionStart, Reg.acc, Vector.getElem_set, Fin.ext_iff]

/-- Encryption wrote `CTR` and `ACC`, and the host restored `ACC`. -/
theorem decryptionStart_alike : AlikeButCtr s (decryptionStart s p') where
  reg r hctr := by
    rw [reg_decryptionStart]
    split
    next hacc => rw [hacc]
    next hacc => exact reg_codec_of_ne false s (Ne.symm hacc) hctr
  xv r hctr := by
    rw [xv_decryptionStart]
    split
    next hacc => subst hacc; rfl
    next hacc => exact xv_codec_of_ne false s (Ne.symm hacc) hctr
  ks := by rw [decryptionStart, codec_frame]
  len := decryptionStart_len s p'

end

section

variable {s : State} {p' : Word}

theorem codecReady_decryptionStart (hready : CodecReady s)
    (hroom : p'.toNat + s.len.toNat ≤ 4294967296)
    (hread : ∀ k, k < s.len.toNat → InRegions s.readable (s.dst.toNat + k))
    (hwrite : ∀ k, k < s.len.toNat → InRegions s.writable (p'.toNat + k))
    (hmeet : ¬ BuffersMeet { s with src := s.dst, dst := p' }) :
    CodecReady (decryptionStart s p') := by
  obtain ⟨hregs, -, ⟨hdst, -⟩, -⟩ := hready
  have hlen := decryptionStart_len s p'
  refine ⟨(decryptionStart_alike s p').codecRegistersValid hregs, ?_, ?_, ?_⟩
  · rw [InputUsable, hlen, decryptionStart_readable]
    exact ⟨hdst, hread⟩
  · rw [OutputUsable, hlen, decryptionStart_writable]
    exact ⟨hroom, hwrite⟩
  · rw [BuffersMeet, hlen]
    exact hmeet

/-- The memory decryption starts from is what encryption left. -/
theorem wf_decryptionStart (hm : s.mem.wf) (hready : CodecReady s) :
    (decryptionStart s p').mem.wf :=
  wf_effect (i := .ctrenc) ((firstFailure_codec_iff (.inl rfl)).mpr hready) hm

/-- Both directions fold the same ciphertext (R214, R223). -/
theorem ctBlocks_decryptionStart (hm : s.mem.wf) (hap : Apart s) :
    ctBlocks true (decryptionStart s p') = ctBlocks false s := by
  rw [ctBlocks_dec, ctBlocks_enc_codec hm hap, decryptionStart_len]
  rfl

/-- The keystream bytes of the two directions cancel (R223). -/
theorem keystreamByte_decryptionStart (k : Nat) :
    keystreamByte (decryptionStart s p') k = keystreamByte s k :=
  congrArg (byteOf · (k % 16)) ((decryptionStart_alike s p').ksBlock_eq (k / 16))

end

/-- Settles O56: both directions run the same keystream over the buffer between them and fold the same
ciphertext. -/
theorem decryptionInvertsEncryption : Obligations.DecryptionInvertsEncryption := by
  intro s p' hm hready hroom hread hwrite hmeet
  have hready' := codecReady_decryptionStart hready hroom hread hwrite hmeet
  have hm' := wf_decryptionStart (p' := p') hm hready
  have halike := decryptionStart_alike s p'
  have hlen := decryptionStart_len s p'
  refine ⟨codec false s, codec true (decryptionStart s p'), exec_ctrenc hready, exec_ctrdec hready',
    fun k hk => ?_, ?_, ?_⟩
  · calc (codec true (decryptionStart s p')).mem.read (p'.toNat + k)
        = (codec false s).mem.read (s.dst.toNat + k) ^^^ keystreamByte (decryptionStart s p') k :=
          read_codec_output true hm' hready'.apart (hlen ▸ hk)
      _ = (s.mem.read (s.src.toNat + k) ^^^ keystreamByte s k) ^^^ keystreamByte s k := by
        rw [read_codec_output false hm hready.apart hk, keystreamByte_decryptionStart]
      _ = s.mem.read (s.src.toNat + k) := by
        rw [BitVec.xor_assoc, BitVec.xor_self, BitVec.xor_zero]
  · calc (codec true (decryptionStart s p')).reg Reg.acc
        = codecFold (decryptionStart s p') ((decryptionStart s p').len.toNat / 96)
            (ctBlocks true (decryptionStart s p')) := reg_acc_codec true hm' hready'.apart
      _ = codecFold s (s.len.toNat / 96) (ctBlocks false s) := by
        rw [hlen, ctBlocks_decryptionStart hm hready.apart, halike.codecFold_eq]
      _ = (codec false s).reg Reg.acc := (reg_acc_codec false hm hready.apart).symm
  · calc (codec true (decryptionStart s p')).reg Reg.ctr
        = ctrAdd (initialCounter ((decryptionStart s p').reg Reg.tag))
            ((decryptionStart s p').len.toNat / 16) := reg_ctr_codec true hm' hready'.apart
      _ = ctrAdd (initialCounter (s.reg Reg.tag)) (s.len.toNat / 16) := by
        rw [hlen, halike.reg Reg.tag (by decide)]
      _ = (codec false s).reg Reg.ctr := (reg_ctr_codec false hm hready.apart).symm

end Sys2Proof.Machine
end

section
/-! PROOFS. A word accepted at `CMD`: it latches the fault of its first failing check and changes nothing
else, or leaves the latch as it was (60_exceptions.md R241 to R245, R250). -/

namespace Sys2Proof.Machine

/-! ### What an accepted word can do -/

/-- No check reads `LASTCMD` (R244). -/
theorem firstFailure_lastcmd (i : Instr) (s : State) (w : Word) :
    firstFailure i { s with lastcmd := w } = firstFailure i s := by
  cases i <;> rfl

section

variable {w : Word} {s : State} {i : Instr}

/-- An accepted word that is no command latches ILLEGAL (R99, R241). -/
theorem acceptCommand_of_illegal {e : IllegalWord} (hdec : decode w = .error e) :
    acceptCommand w s = .next (latched .illegal w { s with lastcmd := w }) := by
  rw [acceptCommand, hdec]; rfl

/-- An accepted command with a failing check latches that check's cause, and its word (R243). -/
theorem acceptCommand_of_failure (hdec : decode w = .ok i) {c : Cause}
    (hcause : firstFailure i s = c) (hfail : c ≠ .noFault) :
    acceptCommand w s = .next (latched c w { s with lastcmd := w }) := by
  have hfirst := (firstFailure_lastcmd i s w).trans hcause
  calc acceptCommand w s
      = exec i { s with lastcmd := w } := by rw [acceptCommand, hdec]
    _ = .next (raiseFault c (encode i) { s with lastcmd := w }) := by
      rw [exec_of_fault (hfirst ▸ hfail), hfirst]
    _ = .next (latched c w { s with lastcmd := w }) := by rw [encode_of_decode hdec]; rfl

/-- An accepted command whose checks pass has its effect (R241). -/
theorem acceptCommand_of_noFault (hdec : decode w = .ok i) (hpass : firstFailure i s = .noFault) :
    acceptCommand w s = .next (effect i { s with lastcmd := w }) := by
  rw [acceptCommand, hdec]
  exact exec_of_noFault ((firstFailure_lastcmd i s w).trans hpass)

end

/-- The codes of R245 other than 0 are the five faults. -/
theorem mem_faults_of_ne_noFault {c : Cause} (h : c ≠ .noFault) :
    c ∈ [Cause.illegal, Cause.uninit, Cause.range, Cause.overlap, Cause.bus] := by
  cases c <;> simp at h ⊢

/-- Settles O22: the word is no command, or one with a failing check, or one whose effect leaves the
latch alone. -/
theorem commandFaultsPreciselyOrNotAtAll : Obligations.CommandFaultsPreciselyOrNotAtAll := by
  intro w s herr
  rw [show issueCommand w s = acceptCommand w s by simp [issueCommand, herr]]
  cases hdec : decode w with
  | error e => exact ⟨_, acceptCommand_of_illegal hdec, .inl ⟨.illegal, by simp, rfl⟩⟩
  | ok i =>
    by_cases hpass : firstFailure i s = .noFault
    · exact ⟨_, acceptCommand_of_noFault hdec hpass, .inr ⟨(effect_err _ _).trans herr,
        effect_cause _ _, effect_fcmd _ _, effect_lastcmd _ _⟩⟩
    · exact ⟨_, acceptCommand_of_failure hdec rfl hpass,
        .inl ⟨_, mem_faults_of_ne_noFault hpass, rfl⟩⟩

/-! ### The first failing check -/

/-- The commands with an input buffer (R43). -/
theorem readsInput_iff (i : Instr) : readsInput i = true ↔
    i = .foldh ∨ (∃ w, i = .foldb w) ∨ i = .ctrenc ∨ i = .ctrdec := by
  cases i <;> simp [readsInput]

/-- The range check as a proposition (R61 (a)). -/
theorem rangeOk_iff (i : Instr) (s : State) : rangeOk i s = true ↔
    (readsInput i = true → s.src.toNat + s.len.toNat ≤ 4294967296) ∧
      (writesOutput i = true → s.dst.toNat + s.len.toNat ≤ 4294967296) := by
  simp [rangeOk, imp_iff_not_or, Config.addrSpace]

/-- The platform check as a proposition (R61 (c)). -/
theorem platformOk_iff (i : Instr) (s : State) : platformOk i s = true ↔
    (readsInput i = true → ∀ k, k < s.len.toNat → InRegions s.readable (s.src.toNat + k)) ∧
      (writesOutput i = true → ∀ k, k < s.len.toNat → InRegions s.writable (s.dst.toNat + k)) := by
  simp [platformOk, imp_iff_not_or, regionsCover_iff_inRegions]

section

variable {i : Instr} {s : State}

/-- The registers are checked before anything else (R244 (b), R250). -/
theorem firstFailure_eq_uninit (hinvalid : ¬ AllValid s (validitySet s i)) :
    firstFailure i s = .uninit := by
  simp [firstFailure, mt (all_valid_iff s _).mp hinvalid]

theorem firstFailure_eq_range (hvalid : AllValid s (validitySet s i)) (hrange : ¬ rangeOk i s = true) :
    firstFailure i s = .range := by
  simp [firstFailure, (all_valid_iff s _).mpr hvalid, hrange]

theorem firstFailure_eq_overlap (hvalid : AllValid s (validitySet s i)) (hrange : rangeOk i s = true)
    (hmeet : buffersOverlap i s = true) : firstFailure i s = .overlap := by
  simp [firstFailure, (all_valid_iff s _).mpr hvalid, hrange, hmeet]

theorem firstFailure_eq_bus (hvalid : AllValid s (validitySet s i)) (hrange : rangeOk i s = true)
    (hapart : ¬ buffersOverlap i s = true) (hplatform : ¬ platformOk i s = true) :
    firstFailure i s = .bus := by
  simp [firstFailure, (all_valid_iff s _).mpr hvalid, hrange, hapart, hplatform]

end

/-- Settles O23: the conditions are the checks of `firstFailure`, and what fails first is latched. -/
theorem firstFailingCheckFaults : Obligations.FirstFailingCheckFaults := by
  unfold Obligations.FirstFailingCheckFaults
  simp only [← readsInput_iff]
  simp only [← writesOutput_iff, ← rangeOk_iff, ← platformOk_iff, ← buffersOverlap_iff]
  refine ⟨fun w s e => acceptCommand_of_illegal, fun w i s hdec => ⟨?_, ?_, ?_, ?_, ?_⟩⟩
  · intro hinvalid
    exact acceptCommand_of_failure hdec (firstFailure_eq_uninit hinvalid) (by decide)
  · intro hvalid hrange
    exact acceptCommand_of_failure hdec (firstFailure_eq_range hvalid hrange) (by decide)
  · intro hvalid hrange hout hmeet
    have hoverlap := (buffersOverlap_iff i s).mpr ⟨hout, hmeet⟩
    exact acceptCommand_of_failure hdec (firstFailure_eq_overlap hvalid hrange hoverlap) (by decide)
  · intro hvalid hrange hapart hplatform
    exact acceptCommand_of_failure hdec (firstFailure_eq_bus hvalid hrange hapart hplatform)
      (by decide)
  · intro hvalid hrange hapart hplatform
    have hpass := (firstFailure_eq_noFault_iff i s).mpr
      ⟨hvalid, hrange, eq_false_of_ne_true hapart, hplatform⟩
    exact ⟨_, acceptCommand_of_noFault hdec hpass, effect_err _ _, effect_cause _ _,
      effect_fcmd _ _⟩

end Sys2Proof.Machine
end

section
/-! PROOFS. The validity sets of the commands are the table of R246, a function of the command, `CFG.KS`
and `LEN` (60_exceptions.md R244, R246, 45_ctr_codec.md R212). -/

namespace Sys2Proof.Machine

/-- A validity set is read off the command, `CFG.KS` and `LEN` (R246). -/
theorem validitySet_congr (i : Instr) {s s' : State} (hks : s'.ks = s.ks) (hlen : s'.len = s.len) :
    validitySet s' i = validitySet s i := by
  have hkeys : roundKeySet s' = roundKeySet s := by
    rw [roundKeySet_eq, roundKeySet_eq, scheduleRegs, scheduleRegs, hks]
  have hcodec : codecSet s' = codecSet s := by rw [codecSet, codecSet, hlen, hkeys]
  cases i with
  | foldh | foldb w => simp only [validitySet, hlen]
  | aesblk rd rs1 => simp only [validitySet, hkeys]
  | ctrenc | ctrdec => exact hcodec
  | _ => rfl

/-- The first `w` table entries are the registers below `w` (R21, R22). -/
theorem mem_tableSet_iff (w : Nat) (r : RegIdx) : r ∈ tableSet w ↔ r.val < w := by
  simp only [tableSet, List.mem_map, List.mem_range]
  constructor
  · rintro ⟨k, hk, rfl⟩
    exact (Nat.mod_le k 32).trans_lt hk
  · exact fun hr => ⟨r.val, hr, Fin.ext (Nat.mod_eq_of_lt r.isLt)⟩

section

variable {s : State} (hlen : s.len ≠ 0#32)
include hlen

/-- FOLDH of a buffer that is not empty needs `ACC` and `H` (R161, R246). -/
theorem mem_validitySet_foldh_iff (r : RegIdx) : r ∈ validitySet s .foldh ↔ r = 24 ∨ r = 23 := by
  simp [validitySet, hlen, Reg.acc, Reg.h]

/-- FOLDB `W` of a buffer that is not empty needs `ACC` and `T[0..W-1]` (R172, R246). -/
theorem mem_validitySet_foldb_iff (w : Nat) (r : RegIdx) :
    r ∈ validitySet s (.foldb w) ↔ r = 24 ∨ r.val < w := by
  simp [validitySet, hlen, Reg.acc, mem_tableSet_iff]

end

/-- Settles O24: row by row of the table, then the fault of a member that is not valid. -/
theorem validitySetsAreTheTable : Obligations.ValiditySetsAreTheTable := by
  intro s
  refine ⟨fun rd rs1 rs2 => ⟨rfl, fun _ => rfl, rfl, rfl, rfl, rfl, rfl, rfl, ?aesblk⟩,
    fun _ => rfl, fun _ => rfl, ?foldEmpty, ?fold, codecSet_valid_iff s, codecSet_valid_iff s,
    fun i _ => validitySet_congr i, ?uninit⟩
  case aesblk => exact congrArg (rs1 :: ·) (roundKeySet_eq s)
  case foldEmpty =>
    exact fun hlen => ⟨validitySet_foldh_of_empty hlen, fun w => validitySet_foldb_of_empty w hlen⟩
  case fold =>
    exact fun hlen =>
      ⟨mem_validitySet_foldh_iff hlen, fun w _ _ => mem_validitySet_foldb_iff hlen w⟩
  case uninit =>
    intro w i hdec hinvalid
    exact acceptCommand_of_failure hdec (firstFailure_eq_uninit hinvalid) (by decide)

end Sys2Proof.Machine
end

section
/-! PROOFS. While `ERR = 1` the CORE is frozen: every port write is ignored but the one that resets, and
only a reset clears the latch (60_exceptions.md R248). -/

namespace Sys2Proof.Machine

/-- While `ERR = 1` a port write changes nothing unless it sets `CTRL` bit 0 (R36, R39, R248). -/
theorem perform_portWrite_of_err {s : State} (herr : s.err = true) {slot : PortSlot} {v : Word}
    (hreset : slot ≠ 135 ∨ v.getLsbD 0 = false) : perform (.portWrite slot v) s = .next s := by
  show writePort (portReg slot) v s = .next s
  obtain ⟨-, issues⟩ | ⟨hctrl, control⟩ | ⟨-, -, -, ignored⟩ | ⟨-, -, hnoErr, -⟩ :=
    writePort_cases (portReg slot) v s
  · rw [issues, issueCommand, if_pos herr]
  · have hclear : v.getLsbD 0 = false :=
      hreset.resolve_left (not_not_intro ((portReg_eq_ctrl slot).mp hctrl))
    rw [control, writeCtrl_of_clear hclear]
  · exact ignored
  · exact Bool.noConfusion (herr.symm.trans hnoErr)

/-- What takes a faulted state to one with `ERR = 0` is a reset (R248). -/
theorem perform_clears_err {s t : State} {a : HostAction} (herr : s.err = true)
    (ht : perform a s = .next t) (hclear : t.err = false) :
    (∃ v, a = .portWrite 135 v ∧ v.getLsbD 0 = true) ∨ a = .hardReset ∨
      ∃ w, a = .hardResetDuring w := by
  cases a with
  | portRead _ | memRead _ | memWrite _ _ =>
    obtain rfl := Host.Outcome.next.inj ht
    exact Bool.noConfusion (herr.symm.trans hclear)
  | hardReset => exact .inr (.inl rfl)
  | hardResetDuring w => exact .inr (.inr ⟨w, rfl⟩)
  | portWrite slot v =>
    by_cases hreset : slot ≠ 135 ∨ v.getLsbD 0 = false
    · obtain rfl := Host.Outcome.next.inj ((perform_portWrite_of_err herr hreset).symm.trans ht)
      exact Bool.noConfusion (herr.symm.trans hclear)
    · obtain ⟨hslot, hbit⟩ := not_or.mp hreset
      obtain rfl := not_not.mp hslot
      exact .inl ⟨v, rfl, eq_true_of_ne_false hbit⟩

/-- Settles O11: port writes are ignored, reads are answered, and `ERR` falls with a reset alone. -/
theorem frozenUntilReset : Obligations.FrozenUntilReset := by
  refine fun s herr => ⟨fun slot v => perform_portWrite_of_err herr, fun slot => rfl,
    fun v hbit => ⟨resetCore s, ?_, resetCore_err s⟩, fun a t => perform_clears_err herr⟩
  rw [perform_portWrite_ctrl, writeCtrl_of_set hbit]

end Sys2Proof.Machine
end

section
/-! PROOFS. A hard reset in the middle of a command: the registers take their reset values, and memory
is open at the output of a codec command past its checks and nowhere else (10_state.md R46,
70_reset_and_hazards.md R270). -/

namespace Sys2Proof.Machine

/-- The words that would write memory: a codec command that runs from `s` without a fault, the latch
clear (R241, R244). -/
theorem writesMemory_iff (w : Word) (s : State) : writesMemory w s = true ↔
    s.err = false ∧ (decode w = .ok .ctrenc ∨ decode w = .ok .ctrdec) ∧ CodecReady s := by
  constructor
  · intro h
    obtain ⟨i, hdec, hout, hpass⟩ := command_of_writesMemory h
    have hcodec := (writesOutput_iff i).mp hout
    refine ⟨?_, by simpa [hdec] using hcodec, (firstFailure_codec_iff hcodec).mp hpass⟩
    simpa using (Bool.and_eq_true_iff.mp h).1
  · rintro ⟨herr, hdec | hdec, hready⟩
    · simp [writesMemory, herr, hdec, writesOutput, (firstFailure_codec_iff (.inl rfl)).mpr hready]
    · simp [writesMemory, herr, hdec, writesOutput, (firstFailure_codec_iff (.inr rfl)).mpr hready]

section

variable {w : Word} {s : State}

/-- A word that would not write memory is reset away like no word at all (R270). -/
theorem resetDuring_of_not_writesMemory (h : ¬ writesMemory w s = true) :
    resetDuring w s = resetCore s := if_neg h

/-- But for memory and the count of free values, a reset in the middle of a command is a reset between
commands (R270). -/
theorem resetDuring_frame : resetDuring w s =
    { resetCore s with mem := (resetDuring w s).mem, draws := (resetDuring w s).draws } := by
  unfold resetDuring
  split <;> rfl

/-- The bytes outside `[DST, DST+LEN)` survive a reset in the middle of a command (R270). -/
theorem read_resetDuring_outside (hm : s.mem.wf) {a : Nat}
    (ha : ¬ (s.dst.toNat ≤ a ∧ a < s.dst.toNat + s.len.toNat)) :
    (resetDuring w s).mem.read a = s.mem.read a := by
  unfold resetDuring
  split
  · rw [resetCore_mem, Memory.read_writeBytes _ _ _ _ hm.1, List.length_map, List.length_range,
      if_neg ha]
  · rfl

end

/-- Settles O13: the step is `resetDuring`, which draws bytes for a word that would write memory only,
and draws them inside the output. -/
theorem midCommandResetOpensOnlyTheOutput : Obligations.MidCommandResetOpensOnlyTheOutput := by
  intro s w rest hm hpending
  refine ⟨_, step_of_pending hpending, resetDuring_frame,
    fun a => read_resetDuring_outside (s := { s with pending := rest, cp := s.cp + 1 }) hm, ?_⟩
  intro hkeeps
  have hwrites : ¬ writesMemory w { s with pending := rest, cp := s.cp + 1 } = true := by
    rw [writesMemory_iff]
    rintro ⟨herr, hcodec, hready⟩
    obtain hlatched | hother | hnotReady := hkeeps
    · exact Bool.noConfusion (herr.symm.trans hlatched)
    · exact hcodec.elim hother.1 hother.2
    · exact hnotReady hready
  rw [resetDuring_of_not_writesMemory hwrites]
  exact ⟨rfl, rfl⟩

end Sys2Proof.Machine
end

section
/-! PROOFS. The checks read the valid bits, `CFG`, `SRC`, `DST`, `LEN` and the platform's predicates, and
nothing else, so no fault depends on data (60_exceptions.md R244, R246, 70_reset_and_hazards.md R280). -/

namespace Sys2Proof.Machine

/-- The two states agree on what a command's checks read (R280). -/
structure SameCheckInputs (s s' : State) : Prop where
  xv : s.xv = s'.xv
  ks : s.ks = s'.ks
  src : s.src = s'.src
  dst : s.dst = s'.dst
  len : s.len = s'.len
  readable : s.readable = s'.readable
  writable : s.writable = s'.writable

section

variable {s s' : State} (h : SameCheckInputs s s') (i : Instr)
include h

theorem SameCheckInputs.all_valid_eq :
    (validitySet s i).all s.valid = (validitySet s' i).all s'.valid := by
  rw [Bool.eq_iff_iff, all_valid_iff, all_valid_iff, validitySet_congr i h.ks h.len]
  exact allValid_congr h.xv _

theorem SameCheckInputs.rangeOk_eq : rangeOk i s = rangeOk i s' := by
  rw [rangeOk, rangeOk, h.src, h.dst, h.len]

theorem SameCheckInputs.buffersOverlap_eq : buffersOverlap i s = buffersOverlap i s' := by
  rw [buffersOverlap, buffersOverlap, h.src, h.dst, h.len]

theorem SameCheckInputs.platformOk_eq : platformOk i s = platformOk i s' := by
  rw [platformOk, platformOk, h.src, h.dst, h.len, h.readable, h.writable]

/-- States alike to the checks fail the same check first, or none (R250, R280). -/
theorem SameCheckInputs.firstFailure_eq : firstFailure i s = firstFailure i s' := by
  rw [firstFailure, firstFailure, h.all_valid_eq, h.rangeOk_eq, h.buffersOverlap_eq, h.platformOk_eq]

end

/-- Settles O25: both states pass the checks, and neither command's effect latches a fault, or both
latch that of the same first failing check with the command's own word. -/
theorem faultsIgnoreData : Obligations.FaultsIgnoreData := by
  intro i s s' hxv hks hsrc hdst hlen hreadable hwritable herr herr'
  have hsame := SameCheckInputs.firstFailure_eq ⟨hxv, hks, hsrc, hdst, hlen, hreadable, hwritable⟩ i
  by_cases hpass : firstFailure i s = .noFault
  · have hclear : (effect i s).err = false := (effect_err i s).trans herr
    have hclear' : (effect i s').err = false := (effect_err i s').trans herr'
    exact ⟨_, _, exec_of_noFault hpass, exec_of_noFault (hsame ▸ hpass),
      hclear.trans hclear'.symm, fun hset => Bool.noConfusion (hclear.symm.trans hset)⟩
  · exact ⟨_, _, exec_of_fault hpass, exec_of_fault (hsame ▸ hpass), rfl, fun _ => ⟨hsame, rfl⟩⟩

end Sys2Proof.Machine
end
